-- ==== Sys2Proof/Word.lean ====
section
/-! DEFINITION. The word types of lookup3_hash_engine (00_scope.md R7, R11; 40_arith_and_bytes.md R90). -/

namespace Sys2Proof

/-- An accumulator, a seed, an output word: W = 32 bits, always unsigned (R7, R90). -/
abbrev Word := BitVec 32

/-- A message byte, always unsigned (R7, R50). -/
abbrev Byte := BitVec 8

/-- A micro-operation code as the trace port carries it (R30, R73). -/
abbrev UopCode := BitVec 8

end Sys2Proof
end

