-- ==== Sys2Proof/Config.lean ====
section
/-! DEFINITION. What an implementation of the engine fixes: the one open parameter LEN_W (00_scope.md R8).
The spec leaves no value free ("the engine has no implementation-defined value, no draw and no election",
92_eei_decisions.md), so no constant without a body stands here. -/

namespace Sys2Proof

/-- The default of LEN_W "for this hardware" (R8). The model takes LEN_W as an argument: it is the field `lenW`
of the state, which no step writes, and this number is only its value at reset (assumption 2). -/
def Config.lenWDefault : Nat := 32

/-- BLK, the number of bytes in one block (R7). -/
def Config.blockBytes : Nat := 12

end Sys2Proof
end

