-- ==== Sys2Proof/Syntax.lean ====
section
/-! DEFINITION. The command set: one constructor per row of spec/opcode_table.json (30_encoding.md R75), and the
words of its two input formats (R70). -/

namespace Sys2Proof

/-- The fields of one command word (30_encoding.md R71). `len` is the unsigned number of message bytes (R74). -/
structure Command where
  seed1 : Word
  seed2 : Word
  len : Nat
deriving DecidableEq, Repr

/-- The seven rows of the opcode map (R75). -/
inductive Instr where
  /-- HASHPAIR len, seed1, seed2: the host command (R110). -/
  | hashpair (seed1 seed2 : Word) (len : Nat)
  /-- HASH len, seed: the pseudo-instruction for a command word with seed2 = 0 (R79, R163). -/
  | hash (seed : Word) (len : Nat)
  /-- INIT: create the accumulators (R111). -/
  | init
  /-- BLOCK: consume one block of 12 bytes (R130). -/
  | block
  /-- TAIL r: fold the last r bytes (R140). -/
  | tail (r : Nat)
  /-- FINAL: the avalanche round (R150). -/
  | final
  /-- OUT: assemble the output pair (R160). -/
  | out
deriving DecidableEq, Repr

/-- A word of one of the two formats that select an instruction (R70): a CMD word of 64 + LEN_W bits, carried as
a number with bit 0 the least significant, or an 8-bit UOP code. -/
inductive Encoded where
  | cmd (w : Nat)
  | uop (code : UopCode)
deriving DecidableEq, Repr

/-- Why a word decodes to no instruction. -/
inductive DecodeError where
  /-- A number with a bit above the 64 + LEN_W bits of format CMD (R70, R71): no wire carries it. -/
  | wordTooWide
  /-- One of the 240 UOP codes that are never generated (R76). -/
  | codeNeverGenerated
deriving DecidableEq, Repr

end Sys2Proof
end

