-- ==== Sys2Proof/WellFormed.lean ====
section
/-! DEFINITION. Which instructions have an encoding: the range of each operand (30_encoding.md R71, R73, R74). -/

namespace Sys2Proof

/-- The length fits the LEN_W bits of its field (R71). -/
def lenFits (lenW len : Nat) : Bool := decide (len < 2 ^ lenW)

/-- Every operand lies in the range its field admits: `len` in LEN_W bits (R71), `r` from 0 to 11 (R73). The
seeds are 32-bit words by type, and every value of theirs is legal (R76). -/
def Instr.wellFormed (lenW : Nat) : Instr → Bool
  | .hashpair _ _ len => lenFits lenW len
  | .hash _ len => lenFits lenW len
  | .init => true
  | .block => true
  | .tail r => decide (r ≤ 11)
  | .final => true
  | .out => true

end Sys2Proof
end

