-- ==== Sys2Proof/Decode.lean ====
section
/-! DEFINITION. Decoding of CMD words and UOP codes and their encoders (30_encoding.md R70 to R77). Both decoders are
total; what is no instruction is rejected by name. -/

namespace Sys2Proof

/-! ### Format CMD -/

/-- The three fields of a CMD word {len, seed2, seed1}: seed1 in bits [31:0], seed2 in [63:32], len in
[63+LEN_W:64] (R71). A number wider than the format is no CMD word. -/
def cmdFields (lenW w : Nat) : Option Command :=
  if w < 2 ^ (64 + lenW) then
    some { seed1 := BitVec.ofNat 32 w, seed2 := BitVec.ofNat 32 (w / 2 ^ 32), len := w / 2 ^ 64 }
  else none

/-- Every CMD word is a HASHPAIR; one with seed2 = 0 is also the row HASH, which this decoder prints (R75: "a
decoder may print either and the engine does not tell them apart"; assumption 8). -/
def decodeCmd (lenW w : Nat) : Except DecodeError Instr :=
  match cmdFields lenW w with
  | none => .error .wordTooWide
  | some c => if c.seed2 = 0#32 then .ok (.hash c.seed1 c.len) else .ok (.hashpair c.seed1 c.seed2 c.len)

/-- The CMD word of a command's fields (R71). -/
def encodeCmd (c : Command) : Nat :=
  c.seed1.toNat + 2 ^ 32 * c.seed2.toNat + 2 ^ 64 * c.len

/-! ### Format UOP -/

/-- The field `op`, bits [7:4] of a UOP code (R73). -/
def uopOp (code : UopCode) : Nat := (code.extractLsb 7 4).toNat

/-- The field `r`, bits [3:0] of a UOP code (R73). -/
def uopR (code : UopCode) : Nat := (code.extractLsb 3 0).toNat

/-- The micro-operation of a code; the 240 codes outside the table of R73 are invalid (R76). -/
def decodeUop (code : UopCode) : Except DecodeError Instr :=
  match uopOp code, uopR code with
  | 1, 0 => .ok .init
  | 2, 0 => .ok .block
  | 3, r => if r ≤ 11 then .ok (.tail r) else .error .codeNeverGenerated
  | 4, 0 => .ok .final
  | 5, 0 => .ok .out
  | _, _ => .error .codeNeverGenerated

/-- The code {op, r} of its two fields (R73). -/
def uopCode (op r : Nat) : UopCode := BitVec.ofNat 8 (16 * op + r)

/-! ### Both formats -/

/-- Decoding of a word of either format. Each format has one fixed length and no mode changes it (R77). -/
def decode (lenW : Nat) : Encoded → Except DecodeError Instr
  | .cmd w => decodeCmd lenW w
  | .uop code => decodeUop code

/-- The word of an instruction, from the tables of R71, R73 and R79 (HASH is HASHPAIR with seed2 = 0). -/
def encode : Instr → Encoded
  | .hashpair seed1 seed2 len => .cmd (encodeCmd ⟨seed1, seed2, len⟩)
  | .hash seed len => .cmd (encodeCmd ⟨seed, 0#32, len⟩)
  | .init => .uop (uopCode 1 0)
  | .block => .uop (uopCode 2 0)
  | .tail r => .uop (uopCode 3 r)
  | .final => .uop (uopCode 4 0)
  | .out => .uop (uopCode 5 0)

/-- The spelling the decoder prints: HASHPAIR len, seed1, 0 is HASH len, seed1 (R79), every other instruction is
itself. -/
def Instr.canonical : Instr → Instr
  | .hashpair seed1 seed2 len => if seed2 = 0#32 then .hash seed1 len else .hashpair seed1 seed2 len
  | .hash seed len => .hash seed len
  | .init => .init
  | .block => .block
  | .tail r => .tail r
  | .final => .final
  | .out => .out

/-- A word of the opcode table: 8 bits are a UOP code, any other width is a CMD word of the default LEN_W whose
bits above `nbits` are 0 (R70; assumption 18). -/
def tableWord (nbits w : Nat) : Encoded :=
  if nbits = 8 then .uop (BitVec.ofNat 8 w) else .cmd w

/-- The instruction the decoder reads from a word of the opcode table. -/
def decodeTableWord (nbits w : Nat) : Option Instr :=
  match decode Config.lenWDefault (tableWord nbits w) with
  | .ok i => some i
  | .error _ => none

end Sys2Proof
end

