-- ==== Sys2Proof/Machine/State.lean ====
section
/-! DEFINITION. The state of one engine (10_state.md R20), the host's side of its ports (R30), the reasons a step can
stop, and the state right after reset (R35). Plain data throughout. -/

namespace Sys2Proof.Machine

/-- The sequencer state (R26). Its binary encoding is not visible and not specified. -/
inductive Phase where
  | idle | blocks | fin | outp | resp
deriving DecidableEq, Repr

/-- The accumulator trio (R22). -/
structure Acc where
  a : Word
  b : Word
  c : Word
deriving DecidableEq, Repr

/-- The registers that are live exactly from INIT to OUT (R24, R25, R27): the accumulators, the read offset, the
remaining length and the need-final flag. `off` and `rem` are natural numbers, which R100 allows because they never
wrap (assumption 3). -/
structure Call where
  acc : Acc
  off : Nat
  rem : Nat
  nf : Bool
deriving DecidableEq, Repr

/-- The result registers PRI and SEC, live exactly in phase RESP (R28). -/
structure Result where
  pri : Word
  sec : Word
deriving DecidableEq, Repr

/-- The message memory (20_memory.md R50) as the host's answers to reads: offset and byte, offsets strictly rising
(`Memory.wf`). An offset that is not listed has no value: its read is not acknowledged (R63, R183; assumption 5). -/
abbrev Memory := List Host.Cell

/-- One engine and the host's side of its ports. -/
structure State where
  /-- LEN_W: configuration, not engine state (R8, R20). No step writes it (assumption 2). -/
  lenW : Nat
  /-- The sequencer state (R26). -/
  phase : Phase
  /-- a, b, c, off, rem, NF; `none` is the spec's "dead" (R24, 93_implementation_defined.md U1; assumption 1). -/
  call : Option Call
  /-- PRI, SEC; `none` is "dead" (R28, U1; assumption 1). -/
  result : Option Result
  /-- The input pin `rst` (R30, R190). -/
  rst : Bool
  /-- The CMD words the host has still to hand over, oldest first: the head is presented on the command port
  (`cmd_valid` = 1), an empty list is `cmd_valid` = 0 (R30, R71, R198, R200; assumption 4). -/
  cmds : List Nat
  /-- The input pin `rsp_ready` (R30). -/
  rspReady : Bool
  /-- The message memory behind the message port (R20, R50). -/
  mem : Memory
  /-- The trace port as the last step drove it: `trc_valid` with `trc_uop` (R30, R181; assumption 7). -/
  trc : Option UopCode
  /-- The offsets handshaken on the message port in the last step, in order (R57, R63; assumption 7). -/
  reads : List Nat
deriving DecidableEq, Repr

/-- Why a step stops with a fault. The engine itself has no fault (R170); this is "the one model-side check this spec
names" (R13). -/
inductive Fault where
  /-- A micro-operation or RSPACK read a dead register. Raised by `State.withCall`, `State.withResult` and the
  sequencer; no legal step reaches it (R13, U1). Safe. -/
  | deadRead
deriving DecidableEq, Repr

/-- Why an instruction has no meaning in a state. -/
inductive Refusal where
  /-- An instruction the model gives no meaning yet, by its mnemonic. Raised by no arm of this model. Safe. -/
  | notModelled (mnemonic : String)
  /-- A micro-operation in a state in which the sequencer does not issue it, so that its precondition fails (R111,
  R113, R130, R140, R150, R160; assumption 9). Raised by `whenIssued`. Safe: no step of the engine reaches it. -/
  | notIssuedHere
  /-- A word that decodes to no instruction (R76, U8). Raised by `step` and by INIT for a CMD word wider than the
  port. Safe. -/
  | undecodable (why : DecodeError)
  /-- A read of an offset outside the message space 0 ≤ o < 2^LEN_W: there is no such address (R50), and no call has
  one (R33, R100; assumption 3). Raised by `State.withBytes`. Safe: no step of the engine reaches it. -/
  | offsetOutsideMessageSpace
deriving DecidableEq, Repr

/-- The state right after reset (R35, R191): phase IDLE, every register dead, `trc_valid` and `msg_req` 0. The
configuration has the spec's default, and the host drives nothing yet (assumption 13). -/
def State.reset : State where
  lenW := Config.lenWDefault
  phase := .idle
  call := none
  result := none
  rst := false
  cmds := []
  rspReady := false
  mem := []
  trc := none
  reads := []

end Sys2Proof.Machine
end

