-- ==== Sys2Proof/Machine/Arith.lean ====
section
/-! DEFINITION. The datapath's arithmetic (40_arith_and_bytes.md R90 to R95). Addition, subtraction and exclusive or
on 32-bit words are BitVec's own `+`, `-` and `^^^`, which wrap modulo 2^32 and record nothing (R91, R92, R93, R95);
rotation is written here. -/

namespace Sys2Proof.Machine

/-- `rotl(x, k)` = ((x · 2^k) mod 2^32) + (x div 2^(32 − k)) (R94). The amount is below 32 by type: rotl is not
defined for k ≥ 32 (R94, U9; assumption 12). -/
def rotl (x : Word) (k : Fin 32) : Word :=
  (x <<< k.val) + (x >>> (32 - k.val))

/-- The alias x[i] of the accumulators: x[0] is a, x[1] is b, x[2] is c (00_scope.md R12, 10_state.md R22). -/
def Acc.x (t : Acc) (i : Fin 3) : Word :=
  match i with
  | 0 => t.a
  | 1 => t.b
  | 2 => t.c

end Sys2Proof.Machine
end

