-- ==== Sys2Proof/Machine/Operands.lean ====
section
/-! DEFINITION. How operands become 32-bit words: the byte helper and the little-endian assembly
(40_arith_and_bytes.md R96 to R98, 20_memory.md R53), and the length as a term of a 32-bit sum
(41_seed_driver_init.md R112). -/

namespace Sys2Proof.Machine

/-- `byte_at`: a byte read from the message, zero-extended and shifted left by `s` (R96). "This helper is the only
place raw bytes are converted to integers." -/
def byteAt (x : Byte) (s : Nat) : Word :=
  (x.setWidth 32) <<< s

/-- The sum of the byte helper over consecutive bytes at shifts `s`, `s + 8`, … -/
def partLeFrom (s : Nat) : List Byte → Word
  | [] => 0#32
  | x :: xs => byteAt x s + partLeFrom (s + 8) xs

/-- `part_le` over the bytes read: Σ byte_at(o + i, 8·i) (R98). -/
def partLe (xs : List Byte) : Word :=
  partLeFrom 0 xs

/-- `word_le` of four consecutive bytes (R97). -/
def wordLe (x0 x1 x2 x3 : Byte) : Word :=
  byteAt x0 0 + byteAt x1 8 + byteAt x2 16 + byteAt x3 24

/-- The `n` bytes from position `o` of a list of message bytes. -/
def sliceOf (xs : List Byte) (o n : Nat) : List Byte :=
  (xs.drop o).take n

/-- `L32` = L mod 2^32 (R112). -/
def len32 (len : Nat) : Word :=
  BitVec.ofNat 32 len

end Sys2Proof.Machine
end

