-- ==== Sys2Proof/Machine/Flags.lean ====
section
/-! DEFINITION. The one flag, NF (10_state.md R27), and the one choice it makes (41_seed_driver_init.md R113). There
is no carry, zero, sign or overflow flag (R27, R95). -/

namespace Sys2Proof.Machine

/-- The value INIT writes to NF: 1 iff L mod 12 ≠ 0, taken of the full L (R27, R101, R111). -/
def needFinal (len : Nat) : Bool :=
  decide (len % Config.blockBytes ≠ 0)

/-- The phase TAIL leaves: FIN if NF = 1, OUTP if NF = 0 (R113, R140). -/
def tailPhase (nf : Bool) : Phase :=
  if nf then .fin else .outp

end Sys2Proof.Machine
end

