-- ==== Sys2Proof/Machine/Ops.lean ====
section
/-! DEFINITION. The shared operations of the meanings: message memory, reads of live registers, the message port,
the trace pulse, the command handshake, and reset. The spec describes no exception and no return from one
(60_exceptions.md R170, R174), so no operation takes one; reset is the only event that ends a call early (R174, R190). -/

namespace Sys2Proof.Machine

/-! ### Message memory as a canonical list -/

/-- The byte the host answers at offset `o`; none where the host acknowledges no read (R52, R63). -/
def Memory.read (m : Memory) (o : Nat) : Option Byte :=
  match m with
  | [] => none
  | (k, x) :: m => if k = o then some x else Memory.read m o

/-- The host puts a byte at offset `o`. -/
def Memory.write (m : Memory) (o : Nat) (v : Byte) : Memory :=
  match m with
  | [] => [(o, v)]
  | (k, x) :: m =>
    if o < k then (o, v) :: (k, x) :: m
    else if o = k then (o, v) :: m
    else (k, x) :: Memory.write m o v

/-- The host stops answering at offset `o`: what an unlisted offset reads as. -/
def Memory.erase (m : Memory) (o : Nat) : Memory :=
  match m with
  | [] => []
  | (k, x) :: m => if k = o then m else (k, x) :: Memory.erase m o

/-- Offsets strictly rising from `lo` and below `hi`. -/
def Memory.risingIn (lo hi : Nat) : Memory → Bool
  | [] => true
  | (k, _) :: m => decide (lo ≤ k) && decide (k < hi) && Memory.risingIn (k + 1) hi m

/-- The canonical form: offsets strictly rising, all inside the message space (R50). An unlisted offset has no
value, so no entry can equal it. -/
def Memory.wf (lenW : Nat) (m : Memory) : Bool :=
  Memory.risingIn 0 (2 ^ lenW) m

/-- The host puts consecutive bytes from offset `o` on. -/
def Memory.writeAll (m : Memory) (o : Nat) : List Byte → Memory
  | [] => m
  | v :: vs => Memory.writeAll (m.write o v) (o + 1) vs

/-! ### Stops of the model -/

/-- The precondition of a micro-operation, "guaranteed by the sequencer" (R111, R130, R140, R150, R160): where it
fails nothing issues the micro-operation and it has no meaning (assumption 9). -/
def whenIssued (p : Prop) [Decidable p] (k : Host.Outcome State Fault Refusal) : Host.Outcome State Fault Refusal :=
  if p then k else .refused .notIssuedHere

/-- Read the live registers of a call; a dead one has no value (R24, U1). -/
def State.withCall (s : State) (k : Call → Host.Outcome State Fault Refusal) : Host.Outcome State Fault Refusal :=
  match s.call with
  | some r => k r
  | none => .fault .deadRead

/-- Read PRI and SEC; dead outside RESP (R28, U1). -/
def State.withResult (s : State) (k : Result → Host.Outcome State Fault Refusal) : Host.Outcome State Fault Refusal :=
  match s.result with
  | some r => k r
  | none => .fault .deadRead

/-! ### The message port -/

/-- Why a read of the message port gives no byte. -/
inductive Stall where
  /-- The host does not acknowledge the read at this offset (R183). -/
  | unanswered (o : Nat)
  /-- There is no such offset (R50). -/
  | outside (o : Nat)
deriving DecidableEq, Repr

/-- `MemRead(o, 1)` on the message port (R52). -/
def State.readByte (s : State) (o : Nat) : Except Stall Byte :=
  if o < 2 ^ s.lenW then
    match s.mem.read o with
    | some x => .ok x
    | none => .error (.unanswered o)
  else .error (.outside o)

/-- One-byte reads at strictly ascending offsets from `o` (R57), stopping at the first that gives no byte: at most
one request is outstanding (R63). -/
def State.readMsg (s : State) (o n : Nat) : Except Stall (List Byte) :=
  match n with
  | 0 => .ok []
  | n + 1 =>
    match s.readByte o with
    | .error e => .error e
    | .ok x =>
      match s.readMsg (o + 1) n with
      | .error e => .error e
      | .ok xs => .ok (x :: xs)

/-- The offsets of `n` reads from `o` on, in order (R57). -/
def readOffsets (o n : Nat) : List Nat :=
  List.range' o n

/-! ### Pulses -/

/-- Nothing completes in this step: no trace pulse, no handshake on the message port, the rest unchanged (R113 row
"wait", R181, R183). -/
def State.quiet (s : State) : State :=
  { s with trc := none, reads := [] }

/-- A micro-operation completes: its code is on the trace port, the offsets it read have been handshaken (R181, R57). -/
def State.pulse (s : State) (code : UopCode) (offsets : List Nat) : State :=
  { s with trc := some code, reads := offsets }

/-- A micro-operation that reads `n` bytes from `o`: it continues with the bytes; an unanswered read holds the engine
where it is (R183, R63), with no byte invented. -/
def State.withBytes (s : State) (o n : Nat) (k : List Byte → Host.Outcome State Fault Refusal) :
    Host.Outcome State Fault Refusal :=
  match s.readMsg o n with
  | .ok xs => k xs
  | .error (.unanswered _) => .next s.quiet
  | .error (.outside _) => .refused .offsetOutsideMessageSpace

/-! ### The command handshake -/

/-- After the handshake the port no longer presents the accepted command; every other command waits on the host's
side as before (R110, R200; assumption 10). -/
def takeCommand (lenW : Nat) (c : Command) (cmds : List Nat) : List Nat :=
  match cmds with
  | [] => []
  | w :: ws => if cmdFields lenW w = some c then ws else w :: ws

/-! ### Reset -/

/-- A cycle with `rst` = 1 (R190, R191, R192): phase IDLE, every register dead, no pulse; the inputs and the
configuration are not the engine's to change. -/
def State.applyReset (s : State) : State :=
  { s with phase := .idle, call := none, result := none, trc := none, reads := [] }

end Sys2Proof.Machine
end

