-- ==== Sys2Proof/Machine/Sequencer.lean ====
section
/-! DEFINITION. The sequencer of `seed_driver` (41_seed_driver_init.md R113): which step comes next. It takes the
place of a program counter and of instruction fetch (10_state.md R26, 20_memory.md R62). -/

namespace Sys2Proof.Machine

/-- What the next step is. -/
inductive Action where
  /-- The instruction this word decodes to: the command word the port presents, or the code of a micro-operation. -/
  | run (w : Encoded)
  /-- The response handshake (R161). -/
  | rspack
  /-- Waiting for the host (R113, R183). -/
  | wait
deriving DecidableEq, Repr

/-- `next_step` (R113). In IDLE the step is the acceptance of the presented command, which is INIT (R110); the loop
condition is rem ≥ 12 (R115). Reading a dead `rem` has no answer (R24). -/
def State.nextAction (s : State) : Except Fault Action :=
  match s.phase with
  | .idle =>
    match s.cmds with
    | [] => .ok .wait
    | w :: _ => .ok (.run (.cmd w))
  | .blocks =>
    match s.call with
    | none => .error .deadRead
    | some r => .ok (.run (.uop (if 12 ≤ r.rem then uopCode 2 0 else uopCode 3 r.rem)))
  | .fin => .ok (.run (.uop (uopCode 4 0)))
  | .outp => .ok (.run (.uop (uopCode 5 0)))
  | .resp => if s.rspReady then .ok .rspack else .ok .wait

end Sys2Proof.Machine
end

