-- ==== Sys2Proof/Machine/Arrange.lean ====
section
/-! DEFINITION. Scaffolding for `State.withFetchWord` alone: states in which the sequencer issues a given word next.
The engine fetches nothing (10_state.md R26): a CMD word comes from the command port, a micro-operation from the
sequencer's own state. The values put into registers here are no reset values (assumption 15). -/

namespace Sys2Proof.Machine

/-- Answer every read of `n` offsets from `o` on: an unanswered one with 0. -/
def Memory.answerAll (m : Memory) (o n : Nat) : Memory :=
  match n with
  | 0 => m
  | n + 1 =>
    match m.read o with
    | some _ => Memory.answerAll m (o + 1) n
    | none => Memory.answerAll (m.write o 0#8) (o + 1) n

/-- The accumulators of the call in progress, zeros where there is none. -/
def State.accOrZero (s : State) : Acc :=
  match s.call with
  | some r => r.acc
  | none => { a := 0#32, b := 0#32, c := 0#32 }

/-- A call in the given phase, offset, remaining length and flag, whose due reads the host answers. -/
def State.inCall (s : State) (phase : Phase) (off rem : Nat) (nf : Bool) : State :=
  { s with
    rst := false
    phase := phase
    call := some { acc := s.accOrZero, off := off, rem := rem, nf := nf }
    result := none
    mem := s.mem.answerAll off rem }

/-- The engine idle with this command word presented. -/
def State.presenting (s : State) (w : Nat) : State :=
  { s.applyReset with rst := false, cmds := w :: s.cmds }

/-- A state in which the sequencer issues this word next; a word that is no instruction can be issued nowhere. -/
def State.arrange (s : State) (w : Encoded) : State :=
  match w with
  | .cmd w => s.presenting w
  | .uop code =>
    match decodeUop code with
    | .ok .init => s.presenting 0
    | .ok .block => s.inCall .blocks 0 12 false
    | .ok (.tail r) => s.inCall .blocks 0 r (needFinal r)
    | .ok .final => s.inCall .fin 1 0 true
    | .ok .out => s.inCall .outp 0 0 false
    | .ok (.hashpair _ _ _) => s
    | .ok (.hash _ _) => s
    | .error _ => s

end Sys2Proof.Machine
end

