-- ==== Sys2Proof/Machine/BlockMixer.lean ====
section
/-! DEFINITION. The sub-block `block_mixer` and the micro-operation BLOCK (42_block_mixer.md R130 to R132). -/

namespace Sys2Proof.Machine

/-- A line of the mixing round that changes a and c: a -= c; a ^= rotl(c, k); c += b (R131, lines 1 and 4). -/
def mixLineA (k : Fin 32) (t : Acc) : Acc :=
  { a := (t.a - t.c) ^^^ rotl t.c k, b := t.b, c := t.c + t.b }

/-- A line that changes b and a: b -= a; b ^= rotl(a, k); a += c (R131, lines 2 and 5). -/
def mixLineB (k : Fin 32) (t : Acc) : Acc :=
  { a := t.a + t.c, b := (t.b - t.a) ^^^ rotl t.a k, c := t.c }

/-- A line that changes c and b: c -= b; c ^= rotl(b, k); b += a (R131, lines 3 and 6). -/
def mixLineC (k : Fin 32) (t : Acc) : Acc :=
  { a := t.a, b := t.b + t.a, c := (t.c - t.b) ^^^ rotl t.b k }

/-- The mixing round: six lines, strictly in this order (R131). -/
def mixround (t : Acc) : Acc :=
  let t := mixLineA 4 t
  let t := mixLineB 6 t
  let t := mixLineC 8 t
  let t := mixLineA 16 t
  let t := mixLineB 19 t
  mixLineC 4 t

/-- `block_mixer`: add the three words of the block, then mix (R132). -/
def blockmix (t : Acc) (k0 k1 k2 : Word) : Acc :=
  mixround { a := t.a + k0, b := t.b + k1, c := t.c + k2 }

/-- The twelve bytes of a block through `block_mixer`: bytes [0..3], [4..7], [8..11] into a, b, c (R130). -/
def mixBytes (t : Acc) (xs : List Byte) : Acc :=
  blockmix t (partLe (sliceOf xs 0 4)) (partLe (sliceOf xs 4 4)) (partLe (sliceOf xs 8 4))

/-- BLOCK (R130): phase BLOCKS and rem ≥ 12; read 12 bytes at off, mix them in, advance. -/
def execBlock (s : State) : Host.Outcome State Fault Refusal :=
  whenIssued (s.phase = .blocks) <|
    s.withCall fun r =>
      whenIssued (12 ≤ r.rem) <|
        s.withBytes r.off 12 fun xs =>
          .next ({ s with call := some { r with acc := mixBytes r.acc xs, off := r.off + 12, rem := r.rem - 12 } }.pulse
            (uopCode 2 0) (readOffsets r.off 12))

end Sys2Proof.Machine
end

