-- ==== Sys2Proof/Machine/FinalizerAvalanche.lean ====
section
/-! DEFINITION. The sub-block `finalizer_avalanche` and the micro-operation FINAL (44_finalizer_avalanche.md R150,
R151). -/

namespace Sys2Proof.Machine

/-- c ^= b; c -= rotl(b, k) (R151, lines 1, 4 and 7). -/
def finLineC (k : Fin 32) (t : Acc) : Acc :=
  { t with c := (t.c ^^^ t.b) - rotl t.b k }

/-- a ^= c; a -= rotl(c, k) (R151, lines 2 and 5). -/
def finLineA (k : Fin 32) (t : Acc) : Acc :=
  { t with a := (t.a ^^^ t.c) - rotl t.c k }

/-- b ^= a; b -= rotl(a, k) (R151, lines 3 and 6). -/
def finLineB (k : Fin 32) (t : Acc) : Acc :=
  { t with b := (t.b ^^^ t.a) - rotl t.a k }

/-- The final round: seven lines, strictly in this order (R151). -/
def finalround (t : Acc) : Acc :=
  let t := finLineC 14 t
  let t := finLineA 11 t
  let t := finLineB 25 t
  let t := finLineC 16 t
  let t := finLineA 4 t
  let t := finLineB 14 t
  finLineC 24 t

/-- FINAL (R150): phase FIN; the accumulators through the final round, then OUTP. It reads no memory, not off, not
rem. -/
def execFinal (s : State) : Host.Outcome State Fault Refusal :=
  whenIssued (s.phase = .fin) <|
    s.withCall fun r =>
      .next ({ s with phase := .outp, call := some { r with acc := finalround r.acc } }.pulse (uopCode 4 0) [])

end Sys2Proof.Machine
end

