-- ==== Sys2Proof/Machine/SeedDriver.lean ====
section
/-! DEFINITION. `seed_driver`: the host commands and INIT (41_seed_driver_init.md R110 to R112), TAIL
(43_tail_fold.md R140), OUT and the response handshake (45_output.md R160, R161). -/

namespace Sys2Proof.Machine

/-! ### INIT and the host commands -/

/-- INIT_CONST (00_scope.md R7). -/
def initConst : Word := 0xdeadbeef#32

/-- The accumulators INIT creates: t = 0xdeadbeef + L32 + seed1 in all three, seed2 added into c (R111). -/
def initAcc (c : Command) : Acc :=
  let t := initConst + len32 c.len + c.seed1
  { a := t, b := t, c := t + c.seed2 }

/-- Every register INIT makes live; it reads none of them (R111). -/
def initCall (c : Command) : Call :=
  { acc := initAcc c, off := 0, rem := c.len, nf := needFinal c.len }

/-- The handshake of command `c` in phase IDLE, which is the INIT step (R110, R111). -/
def State.accept (s : State) (c : Command) : State :=
  { s with phase := .blocks, call := some (initCall c), cmds := takeCommand s.lenW c s.cmds }.pulse (uopCode 1 0) []

/-- A host command: accepted in phase IDLE, where acceptance is the INIT step; in any other phase `cmd_ready` = 0 and
it waits on the host's side, neither dropped nor queued inside the engine (R110, R200; assumption 10). -/
def State.issue (s : State) (c : Command) : Host.Outcome State Fault Refusal :=
  if s.phase = .idle then .next (s.accept c) else .next s.quiet

/-- HASHPAIR len, seed1, seed2 (R110). -/
def execHashpair (seed1 seed2 : Word) (len : Nat) (s : State) : Host.Outcome State Fault Refusal :=
  s.issue { seed1 := seed1, seed2 := seed2, len := len }

/-- HASH len, seed: HASHPAIR len, seed, 0, whose user consumes only `primary` (R79, R163). -/
def execHash (seed : Word) (len : Nat) (s : State) : Host.Outcome State Fault Refusal :=
  s.issue { seed1 := seed, seed2 := 0#32, len := len }

/-- INIT (R111): phase IDLE and a command handshake in this cycle; its operands are the fields of the command that
the port presents. -/
def execInit (s : State) : Host.Outcome State Fault Refusal :=
  whenIssued (s.phase = .idle) <|
    match s.cmds with
    | [] => .refused .notIssuedHere
    | w :: _ =>
      match cmdFields s.lenW w with
      | none => .refused (.undecodable .wordTooWide)
      | some c => .next (s.accept c)

/-! ### TAIL -/

/-- The additions of TAIL r: the first na, then nb, then nc of the r bytes into a, b and c (R140). No mixing round. -/
def tailFold (t : Acc) (r : Nat) (xs : List Byte) : Acc :=
  let na := min r 4
  let nb := min (r - 4) 4
  let nc := r - 8
  { a := t.a + partLe (sliceOf xs 0 na)
    b := t.b + partLe (sliceOf xs 4 nb)
    c := t.c + partLe (sliceOf xs 8 nc) }

/-- TAIL r (R140): phase BLOCKS and rem < 12, with r = rem; fold the last r bytes and go to FIN or OUTP. -/
def execTail (r : Nat) (s : State) : Host.Outcome State Fault Refusal :=
  whenIssued (s.phase = .blocks) <|
    s.withCall fun g =>
      whenIssued (g.rem < 12 ∧ r = g.rem) <|
        s.withBytes g.off r fun xs =>
          .next ({ s with
              phase := tailPhase g.nf
              call := some { g with acc := tailFold g.acc r xs, off := g.off + r, rem := 0 } }.pulse
            (uopCode 3 r) (readOffsets g.off r))

/-! ### OUT and the response -/

/-- OUT (R160): phase OUTP; PRI ← c, SEC ← b, and the registers of the call become dead. -/
def execOut (s : State) : Host.Outcome State Fault Refusal :=
  whenIssued (s.phase = .outp) <|
    s.withCall fun r =>
      .next ({ s with phase := .resp, call := none, result := some { pri := r.acc.c, sec := r.acc.b } }.pulse
        (uopCode 5 0) [])

/-- RSPACK (R161): the response handshake; a step without a code. PRI and SEC, which the response channel drives,
become dead. -/
def State.respond (s : State) : Host.Outcome State Fault Refusal :=
  whenIssued (s.phase = .resp ∧ s.rspReady = true) <|
    s.withResult fun _ =>
      .next { s with phase := .idle, result := none }.quiet

end Sys2Proof.Machine
end

