-- ==== Sys2Proof/Machine/Dispatch.lean ====
section
/-! DEFINITION. The dispatch: one arm per constructor of Instr. -/

namespace Sys2Proof.Machine

/-- The meaning of an instruction in a state. -/
def exec (i : Instr) (s : State) : Host.Outcome State Fault Refusal :=
  match i with
  | .hashpair seed1 seed2 len => Sys2Proof.Machine.execHashpair seed1 seed2 len s
  | .hash seed len => Sys2Proof.Machine.execHash seed len s
  | .init => Sys2Proof.Machine.execInit s
  | .block => Sys2Proof.Machine.execBlock s
  | .tail r => Sys2Proof.Machine.execTail r s
  | .final => Sys2Proof.Machine.execFinal s
  | .out => Sys2Proof.Machine.execOut s

end Sys2Proof.Machine
end

