-- ==== Sys2Proof/Machine/Step.lean ====
section
/-! DEFINITION. One step of the engine (00_scope.md R9, R13; 41_seed_driver_init.md R113): a cycle of reset, a
micro-operation, the response handshake, or a wait. -/

namespace Sys2Proof.Machine

/-- Reset has priority over every other event (R190, R173). Otherwise the sequencer chooses (R113); the word it
issues is decoded and executed. -/
def step (s : State) : Host.Outcome State Fault Refusal :=
  if s.rst then .next s.applyReset
  else
    match s.nextAction with
    | .error f => .fault f
    | .ok .wait => .next s.quiet
    | .ok .rspack => s.respond
    | .ok (.run w) =>
      match decode s.lenW w with
      | .ok i => exec i s
      | .error e => .refused (.undecodable e)

/-- The state with this word of the opcode table as the next that the engine issues (assumption 15). -/
def State.withFetchWord (s : State) (nbits w : Nat) : State :=
  s.arrange (tableWord nbits w)

end Sys2Proof.Machine
end

