-- ==== Sys2Proof/Machine/Ports.lean ====
section
/-! DEFINITION. The output ports as functions of the state (10_state.md R26, R29, R30). A data output has no value
while its qualifier is 0 (93_implementation_defined.md U2). -/

namespace Sys2Proof.Machine

/-- `cmd_ready` = 1 iff phase = IDLE (R26). -/
def State.cmdReady (s : State) : Bool :=
  decide (s.phase = .idle)

/-- `busy` = 1 iff phase ≠ IDLE (R26). -/
def State.busy (s : State) : Bool :=
  decide (s.phase ≠ .idle)

/-- `rsp_valid` = 1 iff phase = RESP (R26). -/
def State.rspValid (s : State) : Bool :=
  decide (s.phase = .resp)

/-- `rsp_primary` and `rsp_secondary` while `rsp_valid` = 1 (R28, R29). -/
def State.rspPort (s : State) : Option Result :=
  if s.rspValid then s.result else none

/-- The response word RSP = {secondary, primary} (30_encoding.md R72). -/
def Result.word (r : Result) : BitVec 64 :=
  r.sec ++ r.pri

/-- The number of bytes the micro-operation that is due in phase BLOCKS reads (R113, R130, R140). -/
def dueBytes (rem : Nat) : Nat :=
  if 12 ≤ rem then 12 else rem

/-- `msg_addr` while `msg_req` = 1 and the host does not answer: the first unanswered offset of the micro-operation
that is due (R63, R183; assumption 6). In the phases IDLE, FIN, OUTP and RESP `msg_req` is 0 (R63). -/
def State.msgPort (s : State) : Option Nat :=
  match s.phase, s.call with
  | .blocks, some r =>
    match s.readMsg r.off (dueBytes r.rem) with
    | .error (.unanswered o) => some o
    | _ => none
  | _, _ => none

end Sys2Proof.Machine
end

