-- ==== Sys2Proof/Machine/HostSide.lean ====
section
/-! DEFINITION. The other agent: what the host can do to the ports (00_scope.md R10, 70_reset_and_hazards.md R190,
R196 to R200). The engine's step never makes these moves; a run interleaves them with steps (Safety.lean). -/

namespace Sys2Proof.Machine

/-- The moves of the host. There is no move that changes or withdraws a presented command (duty 3, R198, U7), and
none that answers a read with anything but the byte placed there (duty 4, R199, U6). Duty 2 is the premise
`keepsMessageStill` of every history and claim: assumption 14. -/
inductive HostMove where
  /-- Present a command word behind those already waiting (R198, R200). -/
  | present (w : Nat)
  /-- Make the byte at an offset readable (R196, R199). -/
  | place (o : Nat) (v : Byte)
  /-- Stop answering reads at an offset (R58, R63). -/
  | withdraw (o : Nat)
  /-- Drive `rsp_ready` (R200). -/
  | ready (v : Bool)
  /-- Drive `rst` (R190). -/
  | reset (v : Bool)
deriving DecidableEq, Repr

/-- The state after a move of the host. A word the port has no wires for and an offset outside the message space are
not there to be driven: nothing changes (R50, R71). -/
def HostMove.apply (h : HostMove) (s : State) : State :=
  match h with
  | .present w => if w < 2 ^ (64 + s.lenW) then { s with cmds := s.cmds ++ [w] } else s
  | .place o v => if o < 2 ^ s.lenW then { s with mem := s.mem.write o v } else s
  | .withdraw o => { s with mem := s.mem.erase o }
  | .ready v => { s with rspReady := v }
  | .reset v => { s with rst := v }

/-- L, the length of the call in progress: off + rem (R33 items 1 and 2); 0 while no call is in progress. -/
def State.callLength (s : State) : Nat :=
  match s.call with
  | some r => r.off + r.rem
  | none => 0

/-- Duty 2, "the message holds still" (R197, R60): from the command handshake until `rsp_valid` rises, while the
registers of a call are live, no byte at an offset below L that the port answers is changed or withdrawn. Offsets from
L on are the host's to change at any time (R58), and so is every offset before and after that. -/
def HostMove.keepsMessageStill (h : HostMove) (s : State) : Bool :=
  match h with
  | .place o v =>
    decide (s.callLength ≤ o) || decide (s.mem.read o = none) || decide (s.mem.read o = some v)
  | .withdraw o => decide (s.callLength ≤ o) || decide (s.mem.read o = none)
  | .present _ => true
  | .ready _ => true
  | .reset _ => true

/-- Duty 4, reads are answered truthfully (R199): a byte of this message that becomes readable is the message's. -/
def HostMove.truthful (msg : List Byte) (h : HostMove) : Bool :=
  match h with
  | .place o v => decide (msg.length ≤ o) || decide (msg[o]? = some v)
  | .withdraw _ => true
  | .present _ => true
  | .ready _ => true
  | .reset _ => true

/-- The host places a whole message at offset 0 and presents a command: how a program of this engine is loaded
(R193, 95_test_vectors.md section 3; assumption 15). -/
def State.load (s : State) (msg : List Byte) (c : Command) : State :=
  { s with mem := s.mem.writeAll 0 msg, cmds := s.cmds ++ [encodeCmd c] }

end Sys2Proof.Machine
end

