-- ==== Sys2Proof/Machine/Assembler.lean ====
section
/-! DEFINITION. The assembler listing of 30_encoding.md R78: its lines with their defaults, the expansion of the
pseudo-instruction HASH (R79), and how a line is written. A convention of the spec (D28), no state of the engine. -/

namespace Sys2Proof.Machine

/-- A line of a listing (R78). An omitted seed is `none`. -/
inductive AsmLine where
  /-- `.msg b0 b1 b2 ...` -/
  | msgBytes (xs : List Byte)
  /-- `.msg "..."`: a double-quoted string. -/
  | msgString (cs : List Char)
  | hashpair (len : Nat) (seed1 seed2 : Option Word)
  | hash (len : Nat) (seed : Option Word)
  | init
  | block
  | tail (r : Nat)
  | final
  | out
deriving DecidableEq, Repr

/-- An omitted seed is 0 (R78). -/
def seedOf (v : Option Word) : Word :=
  v.getD 0#32

/-- The instruction a line stands for; a directive stands for none. HASH len, seed expands to HASHPAIR len, seed, 0
(R79). -/
def AsmLine.instr : AsmLine → Option Instr
  | .msgBytes _ => none
  | .msgString _ => none
  | .hashpair len seed1 seed2 => some (.hashpair (seedOf seed1) (seedOf seed2) len)
  | .hash len seed => some (.hashpair (seedOf seed) 0#32 len)
  | .init => some .init
  | .block => some .block
  | .tail r => some (.tail r)
  | .final => some .final
  | .out => some .out

/-- The bytes of a string: each character stands for its code, and only 7-bit ASCII characters may occur (R78). -/
def asciiBytes : List Char → Option (List Byte)
  | [] => some []
  | ch :: cs =>
    if ch.toNat < 128 then (asciiBytes cs).map (BitVec.ofNat 8 ch.toNat :: ·) else none

/-- The message bytes a directive places at offsets 0, 1, 2, … (R78). -/
def AsmLine.bytes : AsmLine → Option (List Byte)
  | .msgBytes xs => some xs
  | .msgString cs => asciiBytes cs
  | .hashpair _ _ _ => none
  | .hash _ _ => none
  | .init => none
  | .block => none
  | .tail _ => none
  | .final => none
  | .out => none

/-- A two-digit hexadecimal byte, as `.msg` lists it (R78). -/
def hexByte (x : Byte) : String :=
  String.ofList [Nat.digitChar (x.toNat / 16), Nat.digitChar (x.toNat % 16)]

/-- How a line is written: the mnemonic, then its operands in the order len, seed1, seed2, unsigned and here in
decimal, separated by commas; omitted seeds are left out (R78; assumption 19). A second seed needs the first. -/
def AsmLine.print : AsmLine → String
  | .msgBytes xs => ".msg" ++ String.join (xs.map fun x => " " ++ hexByte x)
  | .msgString cs => ".msg \"" ++ String.ofList cs ++ "\""
  | .hashpair len none none => "HASHPAIR " ++ Nat.repr len
  | .hashpair len (some s1) none => "HASHPAIR " ++ Nat.repr len ++ ", " ++ Nat.repr s1.toNat
  | .hashpair len s1 (some s2) =>
    "HASHPAIR " ++ Nat.repr len ++ ", " ++ Nat.repr (seedOf s1).toNat ++ ", " ++ Nat.repr s2.toNat
  | .hash len none => "HASH " ++ Nat.repr len
  | .hash len (some v) => "HASH " ++ Nat.repr len ++ ", " ++ Nat.repr v.toNat
  | .init => "INIT"
  | .block => "BLOCK"
  | .tail r => "TAIL " ++ Nat.repr r
  | .final => "FINAL"
  | .out => "OUT"

end Sys2Proof.Machine
end

