-- ==== Sys2Proof/Machine/WholeCall.lean ====
section
/-! DEFINITION. The function of a whole call (45_output.md R162, R163): a reference written apart from the step
machine, on a message given as the list of its bytes. -/

namespace Sys2Proof.Machine

/-- The accumulators after the first `n` blocks of the message (R162, the loop for i = 0 .. n−1). -/
def afterBlocks (msg : List Byte) (t : Acc) : Nat → Acc
  | 0 => t
  | i + 1 =>
    blockmix (afterBlocks msg t i)
      (partLe (sliceOf msg (12 * i) 4)) (partLe (sliceOf msg (12 * i + 4) 4)) (partLe (sliceOf msg (12 * i + 8) 4))

/-- The accumulators after the tail additions (R162). -/
def afterTail (msg : List Byte) (t : Acc) : Acc :=
  let n := msg.length / 12
  let r := msg.length % 12
  let u := afterBlocks msg t n
  { a := u.a + partLe (sliceOf msg (12 * n) (min r 4))
    b := u.b + partLe (sliceOf msg (12 * n + 4) (min (r - 4) 4))
    c := u.c + partLe (sliceOf msg (12 * n + 8) (r - 8)) }

/-- `hashPair(M, seed1, seed2)` = (primary = c, secondary = b) (R162). -/
def hashPair (msg : List Byte) (seed1 seed2 : Word) : Result :=
  let t := 0xdeadbeef#32 + BitVec.ofNat 32 msg.length + seed1
  let u := afterTail msg { a := t, b := t, c := t + seed2 }
  let v := if msg.length % 12 ≠ 0 then finalround u else u
  { pri := v.c, sec := v.b }

/-- `hash(M, seed)` = hashPair(M, seed, 0).primary (R79, R163). -/
def hash (msg : List Byte) (seed : Word) : Word :=
  (hashPair msg seed 0#32).pri

/-- The number of micro-operations of a call: n + 3 if r = 0, else n + 4 (R80, R114, R202). -/
def uopCount (len : Nat) : Nat :=
  if len % 12 = 0 then len / 12 + 3 else len / 12 + 4

/-- The codes a call emits on the trace port: 10, 20 × n, 30 + r, 40 if r ≠ 0, 50 (R80, R114). -/
def callTrace (len : Nat) : List UopCode :=
  let n := len / 12
  let r := len % 12
  0x10#8 :: List.replicate n 0x20#8 ++ [0x30#8 + BitVec.ofNat 8 r] ++ (if r ≠ 0 then [0x40#8] else []) ++ [0x50#8]

end Sys2Proof.Machine
end

