-- ==== Sys2Proof/Safety.lean ====
section
/-! DEFINITION. What counts as a safe state and a safe run (10_state.md R33, 00_scope.md R13), and the vocabulary in
which claims speak of whole calls. -/

namespace Sys2Proof.Machine

/-- R33 items 1 to 3 and 5 for the registers of each phase, without naming L: live and dead registers, off a multiple
of 12 in BLOCKS, off + rem inside LEN_W bits, and NF as R27 says. -/
def phaseInv (lenW : Nat) (phase : Phase) (call : Option Call) (result : Option Result) : Bool :=
  match phase, call, result with
  | .idle, none, none => true
  | .blocks, some r, none =>
    decide (r.off % 12 = 0) && decide (r.off + r.rem < 2 ^ lenW) && (r.nf == decide (r.rem % 12 ≠ 0))
  | .fin, some r, none => decide (r.rem = 0) && decide (r.off < 2 ^ lenW) && r.nf && decide (r.off % 12 ≠ 0)
  | .outp, some r, none =>
    decide (r.rem = 0) && decide (r.off < 2 ^ lenW) && (r.nf == decide (r.off % 12 ≠ 0))
  | .resp, none, some _ => true
  | _, _, _ => false

/-- A code the sequencer generates (R73, R76). -/
def isUopCode (code : UopCode) : Bool :=
  match decodeUop code with
  | .ok _ => true
  | .error _ => false

/-- The invariant of the whole machine: LEN_W is legal (R8), the registers fit the phase (R33), every waiting command
word fits the port (R71), the message memory is canonical (R50), the trace port carries only codes of R73. -/
def State.inv (s : State) : Bool :=
  decide (1 ≤ s.lenW) && phaseInv s.lenW s.phase s.call s.result &&
    s.cmds.all (fun w => decide (w < 2 ^ (64 + s.lenW))) && s.mem.wf s.lenW && s.trc.all isUopCode

/-- The states of the engine with some LEN_W after any interleaving of its steps and moves of a host that keeps duty 2
(R195, R197, U4). A history begins at reset (R194, U3). -/
inductive Reachable : State → Prop where
  | reset (lenW : Nat) : 1 ≤ lenW → Reachable { State.reset with lenW := lenW }
  | engine (s t : State) : Reachable s → step s = .next t → Reachable t
  | host (h : HostMove) (s : State) : Reachable s → h.keepsMessageStill s = true → Reachable (h.apply s)

/-- A step from here returns a next state (R13). -/
def State.goesOn (s : State) : Prop :=
  ∃ t, step s = .next t

/-- The host keeps duties 1 and 4 for this message: every one of its bytes is readable at its offset and answered
with its own value (R196, R199). -/
def State.answers (s : State) (msg : List Byte) : Prop :=
  ∀ i, i < msg.length → s.mem.read i = msg[i]?

/-- The engine is about to accept this command: no reset, phase IDLE, the command at the head of the port, its length
inside LEN_W bits (R71, R110). -/
def State.presents (s : State) (c : Command) : Prop :=
  s.rst = false ∧ s.phase = .idle ∧ c.len < 2 ^ s.lenW ∧ s.cmds.head? = some (encodeCmd c)

/-- The answers given so far are bytes of this message: the part of duty 4 that says "truthfully" (R199), while the
host may still take its time with others. -/
def State.agrees (s : State) (msg : List Byte) : Prop :=
  ∀ o x, o < msg.length → s.mem.read o = some x → msg[o]? = some x

/-- The next `k` steps, with the inputs as they stand: what Host.Core.run does with this machine (`stepN_eq_run`). -/
def stepN : Nat → State → Host.Outcome State Fault Refusal
  | 0, s => .next s
  | k + 1, s =>
    match step s with
    | .next t => stepN k t
    | .fault r => .fault r
    | .refused r => .refused r

/-- The codes on the trace port over the next `k` steps (R80, R181). -/
def traceOf : Nat → State → List UopCode
  | 0, _ => []
  | k + 1, s =>
    match step s with
    | .next t => t.trc.toList ++ traceOf k t
    | .fault _ => []
    | .refused _ => []

/-- The offsets handshaken on the message port over the next `k` steps (R55, R57). -/
def readsOf : Nat → State → List Nat
  | 0, _ => []
  | k + 1, s =>
    match step s with
    | .next t => t.reads ++ readsOf k t
    | .fault _ => []
    | .refused _ => []

/-! ### What a call in progress will answer -/

/-- The accumulators after the next `n` blocks of the message from offset `o` on (R130, R162). -/
def blocksFrom (msg : List Byte) (o : Nat) (t : Acc) : Nat → Acc
  | 0 => t
  | n + 1 => blocksFrom msg (o + 12) (mixBytes t (sliceOf msg o 12)) n

/-- The accumulators once the blocks and the tail that a call has still to consume are folded in (R113, R140). -/
def Call.afterMessage (r : Call) (msg : List Byte) : Acc :=
  let n := r.rem / 12
  let q := r.rem % 12
  tailFold (blocksFrom msg r.off r.acc n) q (sliceOf msg (r.off + 12 * n) q)

/-- The pair of the accumulators: primary is c, secondary is b (R160). -/
def Acc.pair (t : Acc) : Result :=
  { pri := t.c, sec := t.b }

/-- The pair a call in progress will answer, from its registers and the message; in RESP the pair it answers. -/
def State.promised (s : State) (msg : List Byte) : Option Result :=
  match s.phase, s.call with
  | .blocks, some r =>
    some (if r.nf then finalround (r.afterMessage msg) else r.afterMessage msg).pair
  | .fin, some r => some (finalround r.acc).pair
  | .outp, some r => some r.acc.pair
  | .resp, _ => s.result
  | _, _ => none

/-- A call over this message is on its way to this pair: the invariant holds, the pair is promised, and while the
registers are live the length is the message's and the answers given are its bytes. -/
def State.onCourse (s : State) (msg : List Byte) (p : Result) : Prop :=
  s.inv = true ∧ s.promised msg = some p ∧ (s.call.isSome = true → s.callLength = msg.length ∧ s.agrees msg)

/-! ### Histories, and the duties of the host as premises (R195) -/

/-- A history: at every moment either the engine steps or the host makes a move that keeps duty 2 (R197). -/
structure History (run : Nat → State) (move : Nat → Option HostMove) : Prop where
  engine : ∀ n, move n = none → step (run n) = .next (run (n + 1))
  host : ∀ n h, move n = some h → h.keepsMessageStill (run n) = true ∧ run (n + 1) = h.apply (run n)

/-- The engine steps again and again (R202: "a host step that is due eventually happens", and no one else waits). -/
def EngineRuns (move : Nat → Option HostMove) : Prop :=
  ∀ n, ∃ m, n ≤ m ∧ move m = none

/-- The call accepted at moment 0 has not been ended by its response handshake or by reset. -/
def StillInCall (run : Nat → State) (n : Nat) : Prop :=
  ∀ k, 0 < k → k ≤ n → (run k).phase ≠ .idle

/-- Duty 4, truthfully (R199): while the call accepted at moment 0 reads, the answers given are bytes of the message. -/
def AnswersTruthfully (run : Nat → State) (msg : List Byte) : Prop :=
  ∀ n, StillInCall run n → (run n).call.isSome = true → (run n).agrees msg

/-- Duty 4, in finite time (R199): a requested byte is answered at some later moment. -/
def AnswersReads (run : Nat → State) : Prop :=
  ∀ n o, (run n).msgPort = some o → ∃ m, n ≤ m ∧ ((run m).mem.read o).isSome = true

/-- Duty 5 (R200): while a response is presented the engine makes, at some later moment, a step with `rsp_ready` = 1. -/
def TakesResponses (run : Nat → State) (move : Nat → Option HostMove) : Prop :=
  ∀ n, (run n).rspValid = true → ∃ m, n ≤ m ∧ move m = none ∧ (run m).rspReady = true

/-- At moment 0 the engine accepts this command (R110). -/
def Accepts (run : Nat → State) (move : Nat → Option HostMove) (c : Command) : Prop :=
  (run 0).presents c ∧ move 0 = none

/-- The control part of a state: everything but the accumulator values, the result values and the message bytes. -/
def State.control (s : State) : State :=
  { s with
    call := s.call.map fun r => { r with acc := { a := 0#32, b := 0#32, c := 0#32 } }
    result := s.result.map fun _ => { pri := 0#32, sec := 0#32 }
    mem := [] }

/-- The state of an outcome that is a next state, for tests. -/
def nextState (o : Host.Outcome State Fault Refusal) : Option State :=
  match o with
  | .next t => some t
  | .fault _ => none
  | .refused _ => none

end Sys2Proof.Machine
end

