-- ==== Sys2Proof/Certificates/Slice0/Obligations.lean ====
section
/-! DEFINITION. The statements for the provers. Each docstring names the rules of spec/ it formalises; a clause that
rests on a choice of the model names its log entry. -/

open Sys2Proof Sys2Proof.Machine

/-! ### Encodings -/

/-- For every LEN_W and every well-formed instruction, decoding its word gives it back in the decoder's spelling,
which is itself except that HASHPAIR len, seed, 0 is printed HASH len, seed (30_encoding.md sections 1, 3 and 6; the
spelling is the model's choice, assumption 8), and the two spellings do the same in every state. -/
def Obligations.DecodeOfEncodeIsTheInstruction : Prop :=
  ∀ (lenW : Nat) (i : Instr), i.wellFormed lenW = true →
    decode lenW (encode i) = .ok i.canonical ∧
      (i.canonical = i ∨ ∃ seed len, i = .hashpair seed 0#32 len ∧ i.canonical = .hash seed len) ∧
      ∀ s, exec i.canonical s = exec i s

/-- Whatever decodes is a well-formed instruction in the decoder's spelling whose word is the one decoded: no bit of a
word is dropped (30_encoding.md sections 1 to 4; the spelling is the model's choice, assumption 8). -/
def Obligations.EncodeOfDecodeIsTheWord : Prop :=
  ∀ (lenW : Nat) (e : Encoded) (i : Instr), decode lenW e = .ok i →
    encode i = e ∧ i.wellFormed lenW = true ∧ i.canonical = i

/-- R71: the command word is {len, seed2, seed1} with seed1 in bits [31:0], seed2 in [63:32], len in [63+LEN_W:64],
and every value of it is a legal HASHPAIR. -/
def Obligations.EveryCommandWordIsHashpair : Prop :=
  ∀ (lenW : Nat) (w : BitVec (64 + lenW)),
    let seed1 := w.extractLsb' 0 32
    let seed2 := w.extractLsb' 32 32
    let len := (w.extractLsb' 64 lenW).toNat
    cmdFields lenW w.toNat = some { seed1 := seed1, seed2 := seed2, len := len } ∧
      ∃ i, decode lenW (.cmd w.toNat) = .ok i ∧ ∀ s, exec i s = exec (.hashpair seed1 seed2 len) s

/-- 30_encoding.md sections 1 and 3: the codes of the five micro-operations, read off the word by match and mask as the opcode map gives
them, with r from 0 to 11 in bits [3:0] of TAIL. -/
def Obligations.UopCodesSelectTheirRows : Prop :=
  ∀ code : UopCode,
    (decode 32 (.uop code) = .ok .init ↔ code &&& 0xFF#8 = 0x10#8) ∧
    (decode 32 (.uop code) = .ok .block ↔ code &&& 0xFF#8 = 0x20#8) ∧
    (∀ r, r ≤ 11 → (decode 32 (.uop code) = .ok (.tail r) ↔ code &&& 0xF0#8 = 0x30#8 ∧ (code &&& 0x0F#8).toNat = r)) ∧
    (decode 32 (.uop code) = .ok .final ↔ code &&& 0xFF#8 = 0x40#8) ∧
    (decode 32 (.uop code) = .ok .out ↔ code &&& 0xFF#8 = 0x50#8) ∧
    (∀ i, decode 32 (.uop code) = .ok i →
      i = .init ∨ i = .block ∨ (∃ r, r ≤ 11 ∧ i = .tail r) ∨ i = .final ∨ i = .out)

/-- 30_encoding.md section 4: sixteen codes are micro-operations and the other 240 are never generated: in every state
whatsoever, the code the sequencer issues decodes, and the code a step leaves on the trace port is one of the
sixteen. -/
def Obligations.OtherCodesAreNeverGenerated : Prop :=
  ((List.range 256).filter fun n => !isUopCode (BitVec.ofNat 8 n)).length = 240 ∧
    (∀ (s : State) (code : UopCode), s.nextAction = .ok (.run (.uop code)) → isUopCode code = true) ∧
    ∀ (s t : State) (code : UopCode), step s = .next t → t.trc = some code → isUopCode code = true

/-- A sanity statement: words written out from 30_encoding.md section 1 and 95_test_vectors.md section 2.10. That the
word with seed2 = 0 is printed HASH is the model's choice (assumption 8). -/
def Obligations.WrittenOutWordsDecode : Prop :=
  decode 32 (.cmd 0x00000019_00000001_ffffffff) = .ok (.hashpair 0xffffffff#32 1#32 25) ∧
    decode 32 (.cmd 0x0000000d_00000000_12345678) = .ok (.hash 0x12345678#32 13) ∧
    decode 32 (.uop 0b00010000#8) = .ok .init ∧ decode 32 (.uop 0b00100000#8) = .ok .block ∧
    decode 32 (.uop 0b00111011#8) = .ok (.tail 11) ∧ decode 32 (.uop 0b01000000#8) = .ok .final ∧
    decode 32 (.uop 0b01010000#8) = .ok .out ∧ decode 32 (.uop 0b00111100#8) = .error .codeNeverGenerated

/-- R79: HASH len, seed is HASHPAIR len, seed, 0: the same word, the same effect in every state, the same
expansion in a listing with an omitted seed 0; its user consumes the primary of hashPair(data, seed, 0). -/
def Obligations.HashExpandsToHashpair : Prop :=
  ∀ (seed : Word) (len : Nat),
    encode (.hash seed len) = encode (.hashpair seed 0#32 len) ∧
      (∀ s, exec (.hash seed len) s = exec (.hashpair seed 0#32 len) s) ∧
      (AsmLine.hash len (some seed)).instr = some (.hashpair seed 0#32 len) ∧
      (AsmLine.hash len none).instr = some (.hashpair 0#32 0#32 len) ∧
      ∀ msg, Machine.hash msg seed = (hashPair msg seed 0#32).pri

/-! ### The datapath -/

/-- 40_arith_and_bytes.md section 5: rotl(x, k) is ((x · 2^k) mod 2^32) + (x div 2^(32 − k)), never wider than 32 bits; bit i of it is bit
(i − k) mod 32 of x; rotl(x, 0) = x; it is BitVec's rotation by k; and the corner cases and the worked example. -/
def Obligations.RotlMovesBitsAround : Prop :=
  (∀ (x : Word) (k : Fin 32),
    (rotl x k).toNat = (x.toNat * 2 ^ k.val) % 2 ^ 32 + x.toNat / 2 ^ (32 - k.val) ∧
      (∀ i, i < 32 → (rotl x k).getLsbD i = x.getLsbD ((i + 32 - k.val) % 32)) ∧
      rotl x k = x.rotateLeft k.val) ∧
    (∀ x, rotl x 0 = x) ∧ (∀ k, rotl 0#32 k = 0#32) ∧ (∀ k, rotl 0xFFFFFFFF#32 k = 0xFFFFFFFF#32) ∧
    rotl 0x80000000#32 4 = 0x00000008#32 ∧ rotl 0x00000001#32 4 = 0x00000010#32 ∧
    rotl 0xdeadbeef#32 4 = 0xeadbeefd#32

/-- R99: the laws of the four operations, items 1 to 5, down to the bijectivity of every line and of the two rounds. -/
def Obligations.DatapathLaws : Prop :=
  (∀ x y : Word, (x - y) + y = x ∧ (x + y) - y = x ∧ (x ^^^ y) ^^^ y = x) ∧
    (∀ (x : Word) (j k : Fin 32), rotl (rotl x j) k = rotl x (j + k)) ∧
    (∀ (x y : Word) (k : Fin 32), rotl (x ^^^ y) k = rotl x k ^^^ rotl y k) ∧
    (∃ (x y : Word) (k : Fin 32), rotl (x + y) k ≠ rotl x k + rotl y k) ∧
    (∃ (x y : Word) (k : Fin 32), rotl (x - y) k ≠ rotl x k - rotl y k) ∧
    (∀ y : Word, Function.Bijective (fun x : Word => x - y) ∧ Function.Bijective (fun x : Word => x + y) ∧
      Function.Bijective fun x : Word => x ^^^ y) ∧
    (∀ k, Function.Bijective (mixLineA k) ∧ Function.Bijective (mixLineB k) ∧ Function.Bijective (mixLineC k)) ∧
    (∀ k, Function.Bijective (finLineA k) ∧ Function.Bijective (finLineB k) ∧ Function.Bijective (finLineC k)) ∧
    Function.Bijective mixround ∧ Function.Bijective finalround ∧
    (0#32 + 0#32 = 0#32 ∧ 0#32 - 0#32 = 0#32 ∧ 0#32 ^^^ 0#32 = 0#32 ∧ ∀ k, rotl 0#32 k = 0#32)

/-- 40_arith_and_bytes.md sections 7 and 8: bytes are assembled little-endian as unsigned numbers: word_le is M[o] + 2^8·M[o+1] + 2^16·M[o+2] +
2^24·M[o+3], part_le is its first n terms (n ≤ 4), and part_le of four bytes is word_le. -/
def Obligations.WordsAreAssembledLittleEndian : Prop :=
  (∀ x0 x1 x2 x3 : Byte,
    (wordLe x0 x1 x2 x3).toNat = x0.toNat + 2 ^ 8 * x1.toNat + 2 ^ 16 * x2.toNat + 2 ^ 24 * x3.toNat ∧
      partLe [x0, x1, x2, x3] = wordLe x0 x1 x2 x3) ∧
    ∀ xs : List Byte, xs.length ≤ 4 →
      (partLe xs).toNat = ((List.range xs.length).map fun i => 2 ^ (8 * i) * (xs.getD i 0#8).toNat).sum

/-- R131: the six lines of the mixing round in the spec's own order, with BitVec's rotation. -/
def Obligations.MixroundIsItsSixLines : Prop :=
  ∀ a b c : Word,
    mixround { a := a, b := b, c := c } =
      (let a := a - c; let a := a ^^^ c.rotateLeft 4; let c := c + b
       let b := b - a; let b := b ^^^ a.rotateLeft 6; let a := a + c
       let c := c - b; let c := c ^^^ b.rotateLeft 8; let b := b + a
       let a := a - c; let a := a ^^^ c.rotateLeft 16; let c := c + b
       let b := b - a; let b := b ^^^ a.rotateLeft 19; let a := a + c
       let c := c - b; let c := c ^^^ b.rotateLeft 4; let b := b + a
       { a := a, b := b, c := c })

/-- R151: the seven lines of the final round in the spec's own order, with BitVec's rotation. -/
def Obligations.FinalroundIsItsSevenLines : Prop :=
  ∀ a b c : Word,
    finalround { a := a, b := b, c := c } =
      (let c := c ^^^ b; let c := c - b.rotateLeft 14
       let a := a ^^^ c; let a := a - c.rotateLeft 11
       let b := b ^^^ a; let b := b - a.rotateLeft 25
       let c := c ^^^ b; let c := c - b.rotateLeft 16
       let a := a ^^^ c; let a := a - c.rotateLeft 4
       let b := b ^^^ a; let b := b - a.rotateLeft 14
       let c := c ^^^ b; let c := c - b.rotateLeft 24
       { a := a, b := b, c := c })

/-- 42_block_mixer.md section 3 and 44_finalizer_avalanche.md section 4: both rounds fix the zero triple; the 18
operations of the mixing round run backwards with + and − exchanged undo it, and so do the 14 of the final round with −
replaced by +; the mixing round is linear neither over + nor over exclusive or. -/
def Obligations.RoundsRunBackwards : Prop :=
  (mixround { a := 0#32, b := 0#32, c := 0#32 } = { a := 0#32, b := 0#32, c := 0#32 } ∧
    finalround { a := 0#32, b := 0#32, c := 0#32 } = { a := 0#32, b := 0#32, c := 0#32 }) ∧
    (∀ t : Acc,
      (let u := mixround t
       let a := u.a; let b := u.b; let c := u.c
       let b := b - a; let c := c ^^^ b.rotateLeft 4; let c := c + b
       let a := a - c; let b := b ^^^ a.rotateLeft 19; let b := b + a
       let c := c - b; let a := a ^^^ c.rotateLeft 16; let a := a + c
       let b := b - a; let c := c ^^^ b.rotateLeft 8; let c := c + b
       let a := a - c; let b := b ^^^ a.rotateLeft 6; let b := b + a
       let c := c - b; let a := a ^^^ c.rotateLeft 4; let a := a + c
       ({ a := a, b := b, c := c } : Acc)) = t) ∧
    (∀ t : Acc,
      (let u := finalround t
       let a := u.a; let b := u.b; let c := u.c
       let c := c + b.rotateLeft 24; let c := c ^^^ b
       let b := b + a.rotateLeft 14; let b := b ^^^ a
       let a := a + c.rotateLeft 4; let a := a ^^^ c
       let c := c + b.rotateLeft 16; let c := c ^^^ b
       let b := b + a.rotateLeft 25; let b := b ^^^ a
       let a := a + c.rotateLeft 11; let a := a ^^^ c
       let c := c + b.rotateLeft 14; let c := c ^^^ b
       ({ a := a, b := b, c := c } : Acc)) = t) ∧
    (∃ t u : Acc, mixround { a := t.a + u.a, b := t.b + u.b, c := t.c + u.c } ≠
      { a := (mixround t).a + (mixround u).a, b := (mixround t).b + (mixround u).b
        c := (mixround t).c + (mixround u).c }) ∧
    ∃ t u : Acc, mixround { a := t.a ^^^ u.a, b := t.b ^^^ u.b, c := t.c ^^^ u.c } ≠
      { a := (mixround t).a ^^^ (mixround u).a, b := (mixround t).b ^^^ (mixround u).b
        c := (mixround t).c ^^^ (mixround u).c }

/-- 43_tail_fold.md section 3: TAIL r adds what BLOCK's addition step would add with the missing bytes taken as zero,
and tails that differ only by trailing zero bytes add the same. -/
def Obligations.TailAddsAZeroPaddedBlock : Prop :=
  ∀ (t : Acc) (xs : List Byte), xs.length ≤ 11 →
    tailFold t xs.length xs = {
      a := t.a + wordLe (xs.getD 0 0#8) (xs.getD 1 0#8) (xs.getD 2 0#8) (xs.getD 3 0#8)
      b := t.b + wordLe (xs.getD 4 0#8) (xs.getD 5 0#8) (xs.getD 6 0#8) (xs.getD 7 0#8)
      c := t.c + wordLe (xs.getD 8 0#8) (xs.getD 9 0#8) (xs.getD 10 0#8) 0#8 } ∧
      ∀ k, xs.length + k ≤ 11 →
        tailFold t (xs.length + k) (xs ++ List.replicate k 0#8) = tailFold t xs.length xs

/-! ### The instructions: where each completes and with what, the whole next state given -/

/-- 41_seed_driver_init.md section 2: in IDLE with a command presented, INIT completes: t = 0xdeadbeef + L32 + seed1 in
a, b and c, seed2 added into c, off = 0, rem = L, NF = 1 iff L mod 12 ≠ 0, phase BLOCKS. Nothing it writes depends on an
earlier call; everything else is unchanged but the trace pulse 0x10 and the command, which the port no longer presents
(that clause is the model's, assumption 10). -/
def Obligations.InitCreatesTheAccumulators : Prop :=
  ∀ (s : State) (c : Command) (rest : List Nat),
    s.phase = .idle → s.cmds = encodeCmd c :: rest → c.len < 2 ^ s.lenW →
      exec .init s = .next { s with
        phase := .blocks
        call := some {
          acc := {
            a := 0xdeadbeef#32 + BitVec.ofNat 32 (c.len % 2 ^ 32) + c.seed1
            b := 0xdeadbeef#32 + BitVec.ofNat 32 (c.len % 2 ^ 32) + c.seed1
            c := 0xdeadbeef#32 + BitVec.ofNat 32 (c.len % 2 ^ 32) + c.seed1 + c.seed2 }
          off := 0
          rem := c.len
          nf := decide (c.len % 12 ≠ 0) }
        cmds := rest
        trc := some 0x10#8
        reads := [] }

/-- 41_seed_driver_init.md section 1 and 30_encoding.md section 6: in IDLE a well-formed HASHPAIR or HASH completes with
the effect of INIT on its operands, whatever waits at the port; if the port presents this very command it is taken from
there, and every other waiting command stays (assumption 10). The whole next state is given. -/
def Obligations.HostCommandsAreAcceptedWhenIdle : Prop :=
  ∀ (s : State) (seed1 seed2 : Word) (len : Nat), s.phase = .idle → len < 2 ^ s.lenW →
    let t := 0xdeadbeef#32 + BitVec.ofNat 32 len + seed1
    let next := fun seed2 : Word => { s with
      phase := .blocks
      call := some { acc := { a := t, b := t, c := t + seed2 }, off := 0, rem := len, nf := decide (len % 12 ≠ 0) }
      cmds :=
        if s.cmds.head? = some (encodeCmd { seed1 := seed1, seed2 := seed2, len := len }) then s.cmds.tail else s.cmds
      trc := some 0x10#8
      reads := [] }
    exec (.hashpair seed1 seed2 len) s = .next (next seed2) ∧ exec (.hash seed1 len) s = .next (next 0#32)

/-- 41_seed_driver_init.md section 1: HASHPAIR, and HASH for seed2 = 0, presented in IDLE complete, and acceptance is
the INIT step. -/
def Obligations.AcceptanceIsTheInitStep : Prop :=
  ∀ (s : State) (seed1 seed2 : Word) (len : Nat) (rest : List Nat),
    s.phase = .idle → s.cmds = encodeCmd { seed1 := seed1, seed2 := seed2, len := len } :: rest → len < 2 ^ s.lenW →
      ∃ t, exec (.hashpair seed1 seed2 len) s = .next t ∧ exec .init s = .next t ∧
        (seed2 = 0#32 → exec (.hash seed1 len) s = .next t) ∧
        t.phase = .blocks ∧ t.trc = some 0x10#8 ∧ t.cmds = rest ∧ t.mem = s.mem ∧
        ∃ r, t.call = some r ∧ r.off = 0 ∧ r.rem = len ∧
          r.acc.c = r.acc.a + seed2 ∧ r.acc.b = r.acc.a ∧ r.acc.a = 0xdeadbeef#32 + BitVec.ofNat 32 len + seed1

/-- 70_reset_and_hazards.md section 3 and 41_seed_driver_init.md section 1: in a phase other than IDLE a command is
not accepted: it waits on the host's side, and no register, no waiting command and no byte changes. -/
def Obligations.CommandsWaitWhileBusy : Prop :=
  ∀ (s : State) (seed1 seed2 : Word) (len : Nat), s.phase ≠ .idle →
    exec (.hashpair seed1 seed2 len) s = .next { s with trc := none, reads := [] } ∧
      exec (.hash seed1 len) s = .next { s with trc := none, reads := [] }

/-- R130: BLOCK in phase BLOCKS with rem ≥ 12 and its twelve bytes answered completes: the three little-endian words
of the block are added into a, b, c, the mixing round is applied, off + 12, rem − 12, NF and the phase unchanged;
twelve one-byte reads at ascending offsets; everything else is unchanged but the trace pulse 0x20. -/
def Obligations.BlockConsumesTwelveBytes : Prop :=
  ∀ (s : State) (r : Call) (msg : Nat → Byte),
    s.phase = .blocks → s.call = some r → 12 ≤ r.rem → r.off + 12 ≤ 2 ^ s.lenW →
    (∀ i, i < 12 → s.mem.read (r.off + i) = some (msg i)) →
      exec .block s = .next { s with
        call := some { r with
          acc := mixround {
            a := r.acc.a + BitVec.ofNat 32
              ((msg 0).toNat + 2 ^ 8 * (msg 1).toNat + 2 ^ 16 * (msg 2).toNat + 2 ^ 24 * (msg 3).toNat)
            b := r.acc.b + BitVec.ofNat 32
              ((msg 4).toNat + 2 ^ 8 * (msg 5).toNat + 2 ^ 16 * (msg 6).toNat + 2 ^ 24 * (msg 7).toNat)
            c := r.acc.c + BitVec.ofNat 32
              ((msg 8).toNat + 2 ^ 8 * (msg 9).toNat + 2 ^ 16 * (msg 10).toNat + 2 ^ 24 * (msg 11).toNat) }
          off := r.off + 12
          rem := r.rem - 12 }
        trc := some 0x20#8
        reads := (List.range 12).map (r.off + ·) }

/-- R140: TAIL r in phase BLOCKS with r = rem < 12 and its r bytes answered completes: byte i
is added as its unsigned value times 2^(8·(i mod 4)), into a for i = 0..3, b for 4..7, c for 8..10; off + r, rem = 0,
NF unchanged, phase FIN if NF = 1 and OUTP if NF = 0; r one-byte reads at ascending offsets; no mixing round;
everything else is unchanged but the trace pulse 0x30 + r. -/
def Obligations.TailFoldsTheLastBytes : Prop :=
  ∀ (s : State) (g : Call) (r : Nat) (msg : Nat → Byte),
    s.phase = .blocks → s.call = some g → g.rem < 12 → r = g.rem → g.off + r ≤ 2 ^ s.lenW →
    (∀ i, i < r → s.mem.read (g.off + i) = some (msg i)) →
      let t := fun i => if i < r then (msg i).toNat else 0
      exec (.tail r) s = .next { s with
        phase := if g.nf = true then .fin else .outp
        call := some { g with
          acc := {
            a := g.acc.a + BitVec.ofNat 32 (t 0 + 2 ^ 8 * t 1 + 2 ^ 16 * t 2 + 2 ^ 24 * t 3)
            b := g.acc.b + BitVec.ofNat 32 (t 4 + 2 ^ 8 * t 5 + 2 ^ 16 * t 6 + 2 ^ 24 * t 7)
            c := g.acc.c + BitVec.ofNat 32 (t 8 + 2 ^ 8 * t 9 + 2 ^ 16 * t 10) }
          off := g.off + r
          rem := 0 }
        trc := some (0x30#8 + BitVec.ofNat 8 r)
        reads := (List.range r).map (g.off + ·) }

/-- R150: FINAL in phase FIN completes: (a, b, c) through the final round, phase OUTP, no flag, no counter, no memory;
everything else is unchanged but the trace pulse 0x40. FIN is entered only by a TAIL r with NF = 1, and the final round
fixes zero. -/
def Obligations.FinalAppliesTheAvalanche : Prop :=
  (∀ (s : State) (r : Call), s.phase = .fin → s.call = some r →
    exec .final s = .next { s with
      phase := .outp
      call := some { r with acc := finalround r.acc }
      trc := some 0x40#8
      reads := [] }) ∧
    (∀ s t : State, step s = .next t → t.phase = .fin →
      s.phase = .blocks ∧ ∃ r, s.call = some r ∧ r.nf = true ∧ r.rem < 12 ∧ exec (.tail r.rem) s = .next t) ∧
    finalround { a := 0#32, b := 0#32, c := 0#32 } = { a := 0#32, b := 0#32, c := 0#32 }

/-- R160: OUT in phase OUTP completes: PRI ← c, SEC ← b, phase RESP, and a, b, c, off, rem, NF become dead; everything
else is unchanged but the trace pulse 0x50. OUTP is entered only by FINAL, or by TAIL 0 with NF = 0. -/
def Obligations.OutAssemblesThePair : Prop :=
  (∀ (s : State) (r : Call), s.phase = .outp → s.call = some r →
    exec .out s = .next { s with
      phase := .resp
      call := none
      result := some { pri := r.acc.c, sec := r.acc.b }
      trc := some 0x50#8
      reads := [] }) ∧
    ∀ s t : State, s.inv = true → step s = .next t → t.phase = .outp →
      (s.phase = .fin ∧ exec .final s = .next t) ∨
        (s.phase = .blocks ∧ (∃ r, s.call = some r ∧ r.nf = false ∧ r.rem = 0) ∧ exec (.tail 0) s = .next t)

/-- 45_output.md section 2 and 30_encoding.md section 1: in RESP the engine drives rsp_valid = 1 and the pair, and holds all of it until a step with
rsp_ready = 1, which takes it to IDLE with PRI and SEC dead and no code on the trace port; a command presented in that
step is not accepted in it. The response word is {secondary, primary}. -/
def Obligations.ResponseIsHeldUntilTaken : Prop :=
  ∀ (s : State) (r : Result), s.rst = false → s.phase = .resp → s.result = some r →
    s.rspValid = true ∧ s.rspPort = some r ∧ r.word.extractLsb' 0 32 = r.pri ∧ r.word.extractLsb' 32 32 = r.sec ∧
      (s.rspReady = false → step s = .next { s with trc := none, reads := [] }) ∧
      (s.rspReady = true → step s = .next { s with phase := .idle, result := none, trc := none, reads := [] })

/-- 60_exceptions.md section 10 and 20_memory.md section 10: a BLOCK or TAIL one of whose reads the host does not answer
is held: nothing changes, no code appears, no byte is invented, and it is no fault. Meanwhile msg_req is 1 and msg_addr
is the first unanswered offset of the micro-operation that is due, before the held step and after it (which offset that
is follows from the order of the reads; that the reads before it do not show is the model's choice, assumption 6). Where
every due read is answered nothing is held. -/
def Obligations.UnansweredReadHoldsTheEngine : Prop :=
  (∀ (s : State) (r : Call) (i : Nat), s.phase = .blocks → s.call = some r → s.mem.read (r.off + i) = none →
    (12 ≤ r.rem → i < 12 → r.off + 12 ≤ 2 ^ s.lenW → exec .block s = .next { s with trc := none, reads := [] }) ∧
      (r.rem < 12 → i < r.rem → r.off + r.rem ≤ 2 ^ s.lenW →
        exec (.tail r.rem) s = .next { s with trc := none, reads := [] }) ∧
      (i < (if 12 ≤ r.rem then 12 else r.rem) → r.off + (if 12 ≤ r.rem then 12 else r.rem) ≤ 2 ^ s.lenW →
        (∀ j, j < i → (s.mem.read (r.off + j)).isSome = true) →
          s.msgPort = some (r.off + i) ∧ ({ s with trc := none, reads := [] } : State).msgPort = some (r.off + i) ∧
            (s.rst = false → step s = .next { s with trc := none, reads := [] }))) ∧
    ∀ (s : State) (o : Nat), s.msgPort = some o →
      s.phase = .blocks ∧ s.mem.read o = none ∧ ∃ r, s.call = some r ∧ r.off ≤ o ∧ o < r.off + r.rem ∧ o < r.off + 12

/-- Where a micro-operation has no meaning, by name (the model's choice, assumption 9; the preconditions are those of
41_seed_driver_init.md section 2, 42_block_mixer.md section 1, 43_tail_fold.md section 1, 44_finalizer_avalanche.md
section 1 and 45_output.md section 1): exactly outside the phase, or the remaining length, in which the sequencer
issues it, and nowhere else. -/
def Obligations.MicroOperationsStopWhereNotIssued : Prop :=
  ∀ s : State,
    (exec .init s = .refused .notIssuedHere ↔ s.phase ≠ .idle ∨ s.cmds = []) ∧
      (exec .block s = .refused .notIssuedHere ↔ s.phase ≠ .blocks ∨ ∃ r, s.call = some r ∧ r.rem < 12) ∧
      (∀ n, exec (.tail n) s = .refused .notIssuedHere ↔
        s.phase ≠ .blocks ∨ ∃ r, s.call = some r ∧ (12 ≤ r.rem ∨ n ≠ r.rem)) ∧
      (exec .final s = .refused .notIssuedHere ↔ s.phase ≠ .fin) ∧
      (exec .out s = .refused .notIssuedHere ↔ s.phase ≠ .outp)

/-- 10_state.md section 2 and 93_implementation_defined.md U1: a dead register has no value, and reading one is a
fault: neither zero nor the last value of an earlier call is read. -/
def Obligations.DeadRegistersFaultOnRead : Prop :=
  (∀ s : State, s.call = none →
    (s.phase = .blocks → exec .block s = .fault .deadRead ∧ (∀ n, exec (.tail n) s = .fault .deadRead) ∧
      (s.rst = false → step s = .fault .deadRead)) ∧
      (s.phase = .fin → exec .final s = .fault .deadRead) ∧
      (s.phase = .outp → exec .out s = .fault .deadRead)) ∧
    ∀ s : State, s.result = none → s.phase = .resp → s.rst = false → s.rspReady = true → step s = .fault .deadRead

/-- 20_memory.md section 1 and 30_encoding.md section 1: what does not exist stops by name (the names are the model's,
assumptions 3 and 20): a read at an offset of 2^LEN_W or above, once the reads before it are answered, and a number on
the command port that is wider than a command word. -/
def Obligations.WhatDoesNotExistStopsByName : Prop :=
  (∀ (s : State) (r : Call) (i : Nat), s.phase = .blocks → s.call = some r → 2 ^ s.lenW ≤ r.off + i →
    (∀ j, j < i → r.off + j < 2 ^ s.lenW ∧ (s.mem.read (r.off + j)).isSome = true) →
      (12 ≤ r.rem → i < 12 → exec .block s = .refused .offsetOutsideMessageSpace) ∧
        (r.rem < 12 → i < r.rem → exec (.tail r.rem) s = .refused .offsetOutsideMessageSpace)) ∧
    ∀ (s : State) (w : Nat) (rest : List Nat), s.phase = .idle → s.cmds = w :: rest → 2 ^ (64 + s.lenW) ≤ w →
      exec .init s = .refused (.undecodable .wordTooWide) ∧
        (s.rst = false → step s = .refused (.undecodable .wordTooWide))

/-! ### The step -/

/-- A step without reset runs the decoded instruction: where the sequencer issues a word and it decodes to i, step is
exec of i, with nothing added around it; in BLOCKS, FIN and OUTP that word is the code of the micro-operation that
41_seed_driver_init.md section 3 selects, and in IDLE it is the command the port presents. The engine has no fetch
(10_state.md section 4): that its step goes through the decoder, and in IDLE executes the presented command as the INIT
step, is the model's reading (assumption 11). -/
def Obligations.StepRunsTheDecodedInstruction : Prop :=
  ∀ (s : State) (w : Encoded) (i : Instr), s.rst = false → decode s.lenW w = .ok i →
    (s.nextAction = .ok (.run w) → step s = exec i s) ∧
      (s.phase = .idle → (∃ v rest, w = .cmd v ∧ s.cmds = v :: rest) → step s = exec i s)

/-- R113: the next step as a function of (phase, rem, NF) and the two handshakes, and the phase each step leaves. In
IDLE without a command and in RESP without rsp_ready the step waits and no register changes. -/
def Obligations.SequencerChoosesTheNextStep : Prop :=
  ∀ s : State, s.rst = false →
    (s.phase = .idle → s.cmds = [] → step s = .next { s with trc := none, reads := [] }) ∧
      (∀ c rest, s.phase = .idle → s.cmds = encodeCmd c :: rest → c.len < 2 ^ s.lenW → step s = exec .init s) ∧
      (∀ r, s.phase = .blocks → s.call = some r → 12 ≤ r.rem → step s = exec .block s) ∧
      (∀ r, s.phase = .blocks → s.call = some r → r.rem < 12 → step s = exec (.tail r.rem) s) ∧
      (s.phase = .fin → step s = exec .final s) ∧
      (s.phase = .outp → step s = exec .out s) ∧
      (s.phase = .resp → s.rspReady = true → step s = s.respond) ∧
      (s.phase = .resp → s.rspReady = false → step s = .next { s with trc := none, reads := [] }) ∧
      (∀ t, exec .init s = .next t → t.phase = .blocks) ∧
      (∀ t, exec .block s = .next t → t.phase = .blocks) ∧
      (∀ t n r, exec (.tail n) s = .next t → s.call = some r →
        t.phase = if t.trc = none then .blocks else if r.nf = true then .fin else .outp) ∧
      (∀ t, exec .final s = .next t → t.phase = .outp) ∧
      (∀ t, exec .out s = .next t → t.phase = .resp) ∧
      (∀ t, s.respond = .next t → t.phase = .idle)

/-- R190: a step with rst = 1, whatever else the state and the inputs are, leaves IDLE, cmd_ready 1,
busy, rsp_valid, msg_req and trc_valid 0, and every register dead; no handshake takes effect: every waiting command is
still there and no response is given. -/
def Obligations.ResetWinsOverEverything : Prop :=
  ∀ s : State, s.rst = true →
    ∃ t, step s = .next t ∧ t.phase = .idle ∧ t.call = none ∧ t.result = none ∧ t.trc = none ∧ t.reads = [] ∧
      t.cmdReady = true ∧ t.busy = false ∧ t.rspValid = false ∧ t.rspPort = none ∧ t.msgPort = none ∧
      t.cmds = s.cmds ∧ t.mem = s.mem ∧ t.lenW = s.lenW ∧ t.rst = s.rst ∧ t.rspReady = s.rspReady

/-- R191: the reset state: phase IDLE; cmd_ready 1, busy 0, rsp_valid 0, msg_req 0, trc_valid 0; every
register dead; every data output without a value. -/
def Obligations.ResetStateIsIdleAndDead : Prop :=
  State.reset.phase = .idle ∧ State.reset.call = none ∧ State.reset.result = none ∧
    State.reset.cmdReady = true ∧ State.reset.busy = false ∧ State.reset.rspValid = false ∧
    State.reset.rspPort = none ∧ State.reset.msgPort = none ∧ State.reset.trc = none

/-- 10_state.md section 4: cmd_ready, rsp_valid, busy as functions of the phase, and 20_memory.md section 10: msg_req
is 0 in every phase but BLOCKS. -/
def Obligations.StatusOutputsFollowThePhase : Prop :=
  ∀ s : State,
    (s.cmdReady = true ↔ s.phase = .idle) ∧ (s.busy = true ↔ s.phase ≠ .idle) ∧ (s.rspValid = true ↔ s.phase = .resp) ∧
      (s.phase ≠ .blocks → s.msgPort = none) ∧ (s.phase ≠ .resp → s.rspPort = none)

/-! ### Invariants -/

/-- 10_state.md section 9: every step from a state that meets the invariant leaves a state that meets it. -/
def Obligations.StepKeepsTheInvariant : Prop :=
  ∀ s t : State, s.inv = true → step s = .next t → t.inv = true

/-- 10_state.md sections 9 and 10: the reset state meets the invariant, with any legal LEN_W. -/
def Obligations.ResetMeetsTheInvariant : Prop :=
  ∀ lenW : Nat, 1 ≤ lenW → State.inv { State.reset with lenW := lenW } = true

/-- Every move of the host keeps the invariant, at any moment (the moves are the model's, assumption 14;
70_reset_and_hazards.md section 3). -/
def Obligations.HostMovesKeepTheInvariant : Prop :=
  ∀ (h : HostMove) (s : State), s.inv = true → (h.apply s).inv = true

/-- 00_scope.md section 5: every step of the engine returns a next state: from a state that meets the invariant there
is no fault and no refusal. -/
def Obligations.EveryStepReturnsANextState : Prop :=
  ∀ s : State, s.inv = true → s.goesOn

/-- 00_scope.md section 5, 60_exceptions.md section 1: after any interleaving of engine steps and host moves from
reset, the invariant holds and the next step returns a next state: the engine never stops and no dead register is ever
read. The host's moves and its duty 2 are those of assumption 14, the pins at reset those of assumption 13. -/
def Obligations.ReachableStatesNeverStop : Prop :=
  ∀ s : State, Reachable s → s.inv = true ∧ s.goesOn

/-- 10_state.md section 9, item 1 with its premise L: from acceptance on, the j-th state of a call (j ≤ L div 12,
counting the INIT step as step 1) is in BLOCKS with off = 12·j, off + rem = L and NF = 1 iff L mod 12 ≠ 0. -/
def Obligations.OffsetAndRemainderAddUpToTheLength : Prop :=
  ∀ (s : State) (c : Command) (msg : List Byte) (j : Nat),
    s.presents c → c.len = msg.length → s.answers msg → j ≤ c.len / 12 →
      ∃ t r, stepN (1 + j) s = .next t ∧ t.phase = .blocks ∧ t.call = some r ∧
        r.off = 12 * j ∧ r.off + r.rem = c.len ∧ (r.nf = true ↔ c.len % 12 ≠ 0)

/-- 10_state.md section 5: at the TAIL step NF is the bit rem ≠ 0. -/
def Obligations.NeedFinalIsNonzeroRemainder : Prop :=
  ∀ (s : State) (r : Call), s.inv = true → s.phase = .blocks → s.call = some r → r.rem < 12 →
    (r.nf = true ↔ r.rem ≠ 0)

/-! ### Frames over all instructions -/

/-- 20_memory.md section 1: the engine never writes the message memory. Nor does any instruction or step change LEN_W
or the pins rst and rsp_ready, which are fields of the model's state (assumptions 2 and 4). -/
def Obligations.EngineNeverWritesMemory : Prop :=
  (∀ (i : Instr) (s t : State), exec i s = .next t →
    (∀ o, t.mem.read o = s.mem.read o) ∧ t.mem = s.mem ∧ t.lenW = s.lenW ∧ t.rst = s.rst ∧ t.rspReady = s.rspReady) ∧
    ∀ s t : State, step s = .next t →
      (∀ o, t.mem.read o = s.mem.read o) ∧ t.mem = s.mem ∧ t.lenW = s.lenW ∧ t.rst = s.rst ∧ t.rspReady = s.rspReady

/-- 20_memory.md section 1: only BLOCK and TAIL r with r > 0 read the message, and they read only offsets from off up
to below off + rem, in ascending order, each once. -/
def Obligations.OnlyBlockAndTailReadTheMessage : Prop :=
  ∀ (i : Instr) (s t : State), exec i s = .next t →
    (t.reads = [] ∨ i = .block ∨ ∃ n, 0 < n ∧ i = .tail n) ∧
      t.reads.Pairwise (· < ·) ∧
      ∀ o, o ∈ t.reads → ∃ r, s.call = some r ∧ r.off ≤ o ∧ o < r.off + r.rem

/-- 10_state.md section 5: no instruction but INIT (and the commands whose acceptance it is) changes NF while the
registers stay live. -/
def Obligations.OnlyInitWritesNeedFinal : Prop :=
  ∀ (i : Instr) (s t : State) (r u : Call), exec i s = .next t → s.call = some r → t.call = some u →
    s.phase ≠ .idle → u.nf = r.nf

/-- 60_exceptions.md section 8: a step that completes a micro-operation pulses its code on the trace port, one pulse.
A pulse is the code of an instruction that this step executed, without reset and with no read held. A step without a
pulse completed nothing: phase, registers and result are as they were, or it was the response handshake, or reset.
Waiting, holding, the response handshake and reset pulse none. -/
def Obligations.TracePulsesOncePerMicroOperation : Prop :=
  ∀ s t : State, step s = .next t →
    (∀ code, t.trc = some code →
      s.rst = false ∧ s.msgPort = none ∧ ∃ i, decode 32 (.uop code) = .ok i ∧ exec i s = .next t) ∧
      (t.trc = none →
        (t.phase = s.phase ∧ t.call = s.call ∧ t.result = s.result) ∨
          (s.phase = .resp ∧ s.rspReady = true ∧ t.phase = .idle) ∨ (s.rst = true ∧ t.phase = .idle)) ∧
      (s.rst = true ∨ s.phase = .resp ∨ s.msgPort ≠ none ∨ (s.phase = .idle ∧ s.cmds = []) → t.trc = none)

/-- 70_reset_and_hazards.md section 3: a command leaves the host's side only by a handshake in IDLE without reset, and
then exactly the oldest one does. -/
def Obligations.CommandsLeaveOnlyByTheHandshake : Prop :=
  ∀ s t : State, s.inv = true → step s = .next t →
    (s.rst = true ∨ s.phase ≠ .idle → t.cmds = s.cmds) ∧ (s.rst = false → s.phase = .idle → t.cmds = s.cmds.tail)

/-- 60_exceptions.md section 3: rsp_ready is ignored while rsp_valid = 0. -/
def Obligations.StrayReadyIsIgnored : Prop :=
  ∀ (s t : State) (v : Bool), s.phase ≠ .resp → step s = .next t →
    step { s with rspReady := v } = .next { t with rspReady := v }

/-- 60_exceptions.md section 3 and 70_reset_and_hazards.md section 3: commands presented while cmd_ready = 0 change
nothing but the list of waiting commands. -/
def Obligations.WaitingCommandsDoNotDisturbACall : Prop :=
  ∀ (s t : State) (ws : List Nat), s.phase ≠ .idle → step s = .next t →
    step { s with cmds := ws } = .next { t with cmds := ws }

/-- 20_memory.md section 9: no message byte, no accumulator and no seed in them steers the sequencer: two states with
the same control part whose steps are both held or both not held have next states with the same control part, hence
the same micro-operation, phase, counters, flag and read offsets. -/
def Obligations.MessageBytesNeverSteerTheSequencer : Prop :=
  ∀ s s' t t' : State, s.control = s'.control → step s = .next t → step s' = .next t' →
    t.trc.isSome = t'.trc.isSome → t.control = t'.control

/-! ### Whole calls -/

/-- 45_output.md section 3: a command HASHPAIR L, seed1, seed2 presented to an idle engine whose host answers the L
message bytes ends, after exactly n + 3 (r = 0) or n + 4 micro-operations, in RESP with the pair hashPair(M, seed1,
seed2); the registers of the call are dead, the memory is untouched, and of the waiting commands only this one is gone
(that clause is the model's, assumptions 4 and 10). The whole state is given. -/
def Obligations.CallComputesHashPair : Prop :=
  ∀ (s : State) (msg : List Byte) (seed1 seed2 : Word),
    s.presents { seed1 := seed1, seed2 := seed2, len := msg.length } → s.answers msg →
      stepN (uopCount msg.length) s = .next { s with
        phase := .resp
        call := none
        result := some (hashPair msg seed1 seed2)
        cmds := s.cmds.tail
        trc := some 0x50#8
        reads := [] }

/-- R80: the codes of the call on the trace port are 10, 20 × n, 30 + r, 40 if r ≠ 0, 50: a function of L
alone. -/
def Obligations.CallTraceIsAFunctionOfTheLength : Prop :=
  ∀ (s : State) (c : Command) (msg : List Byte), s.presents c → c.len = msg.length → s.answers msg →
    traceOf (uopCount c.len) s =
      [0x10#8] ++ List.replicate (c.len / 12) 0x20#8 ++ [0x30#8 + BitVec.ofNat 8 (c.len % 12)] ++
        (if c.len % 12 ≠ 0 then [0x40#8] else []) ++ [0x50#8]

/-- R57: the engine issues its reads in strictly ascending offset order 0, 1, 2, …, L − 1, hence each offset below L
exactly once and no other. -/
def Obligations.CallReadsEveryByteOnceAscending : Prop :=
  ∀ (s : State) (c : Command) (msg : List Byte), s.presents c → c.len = msg.length → s.answers msg →
    readsOf (uopCount c.len) s = List.range c.len

/-- 45_output.md section 5, 10_state.md section 9 and 20_memory.md section 7: the response depends on nothing but
(M[0 … L−1], L, seed1, seed2): two engines with any earlier states, any other memory contents, any other waiting
commands and any LEN_W that holds L answer the same command alike. First where every byte is answered at the start;
then in any two histories in which the hosts keep duties 2 and 4, however long each takes over each byte and whatever
else it does meanwhile (the moves are the model's, assumption 14). -/
def Obligations.ResponseIsIndependentOfHistory : Prop :=
  (∀ (s s' : State) (c : Command) (msg : List Byte),
    c.len = msg.length → s.presents c → s'.presents c → s.answers msg → s'.answers msg →
      ∃ t t' r, stepN (uopCount c.len) s = .next t ∧ stepN (uopCount c.len) s' = .next t' ∧
        t.rspPort = some r ∧ t'.rspPort = some r) ∧
    ∀ (run run' : Nat → State) (move move' : Nat → Option HostMove) (c : Command) (msg : List Byte) (n n' : Nat)
      (r r' : Result),
      History run move → History run' move' → Accepts run move c → Accepts run' move' c → c.len = msg.length →
        AnswersTruthfully run msg → AnswersTruthfully run' msg → StillInCall run n → StillInCall run' n' →
          (run n).rspPort = some r → (run' n').rspPort = some r' → r = r'

/-- 45_output.md sections 3 and 5, 20_memory.md section 7: a call on its way to a pair stays on its way to that same pair
(computed from its registers and the message) at every step without reset, until the handshake that takes the response;
at every host move that keeps duty 2 and, while the call reads, duty 4; and duty 2 alone keeps a message that is
readable as a whole (the moves are the model's, assumption 14). -/
def Obligations.PromisedPairIsKept : Prop :=
  ∀ (s : State) (msg : List Byte) (p : Result), s.onCourse msg p →
    (∀ t, s.rst = false → step s = .next t →
      t.onCourse msg p ∨ (s.phase = .resp ∧ s.rspReady = true ∧ s.rspPort = some p ∧ t.phase = .idle)) ∧
      (∀ h : HostMove, h.keepsMessageStill s = true → (s.call.isSome = true → h.truthful msg = true) →
        (h.apply s).onCourse msg p) ∧
      ∀ h : HostMove, h.keepsMessageStill s = true → s.call.isSome = true → s.answers msg → (h.apply s).answers msg

/-- 41_seed_driver_init.md section 3, 45_output.md section 3, 60_exceptions.md section 10 and 70_reset_and_hazards.md
section 3: in every history in which the host keeps its duties and does not reset, an accepted command is answered with
hashPair of its message, within the same call, and the response is then taken: a call completes however the host's moves
fall between the steps. The duties are premises: 2 is in History, 4 is AnswersTruthfully and AnswersReads, 5 is
TakesResponses, 3 holds of every move the model has, and 1 is that the answers are this message's (assumption 14). -/
def Obligations.CallsUnderTheDutiesAreAnsweredAndTaken : Prop :=
  ∀ (run : Nat → State) (move : Nat → Option HostMove) (c : Command) (msg : List Byte),
    History run move → EngineRuns move → (∀ n, (run n).rst = false) → (run 0).inv = true → Accepts run move c →
      c.len = msg.length → AnswersTruthfully run msg → AnswersReads run → TakesResponses run move →
        ∃ n m, StillInCall run n ∧ (run n).rspPort = some (hashPair msg c.seed1 c.seed2) ∧ n < m ∧ (run m).phase = .idle

/-- 41_seed_driver_init.md section 3: every call ends: from any state of a call whose remaining bytes are answered,
RESP is reached within rem div 12 + 3 steps. -/
def Obligations.EveryAnsweredCallEnds : Prop :=
  ∀ (s : State) (r : Call), s.inv = true → s.rst = false → s.call = some r →
    (∀ o, r.off ≤ o → o < r.off + r.rem → (s.mem.read o).isSome = true) →
      ∃ k t, k ≤ r.rem / 12 + 3 ∧ stepN k s = .next t ∧ t.phase = .resp ∧ t.result.isSome = true

/-- 60_exceptions.md section 10: while the host leaves one byte of the call unanswered and does not reset, the engine
stays busy in BLOCKS for ever, never at or past that byte, with no response and no fault. -/
def Obligations.UnansweredByteHoldsTheCallForEver : Prop :=
  ∀ (s : State) (r : Call) (o k : Nat), s.inv = true → s.rst = false → s.phase = .blocks → s.call = some r →
    r.off ≤ o → o < r.off + r.rem → s.mem.read o = none →
      ∃ t u, stepN k s = .next t ∧ t.phase = .blocks ∧ t.busy = true ∧ t.rspPort = none ∧ t.call = some u ∧
        u.off ≤ o ∧ u.off + u.rem = r.off + r.rem

/-- R164: hashPair([], 0, 0) = (0xDEADBEEF, 0xDEADBEEF); for L = 0 in general primary = 0xdeadbeef + seed1 + seed2 and
secondary = 0xdeadbeef + seed1; an idle engine gives it in three steps, trace 10 30 50, reading no byte, whatever the
memory holds. -/
def Obligations.EmptyMessageFixture : Prop :=
  hashPair [] 0#32 0#32 = { pri := 0xDEADBEEF#32, sec := 0xDEADBEEF#32 } ∧
    ∀ seed1 seed2 : Word,
      hashPair [] seed1 seed2 = { pri := 0xdeadbeef#32 + seed1 + seed2, sec := 0xdeadbeef#32 + seed1 } ∧
        ∀ s : State, s.presents { seed1 := seed1, seed2 := seed2, len := 0 } →
          traceOf 3 s = [0x10#8, 0x30#8, 0x50#8] ∧ readsOf 3 s = [] ∧
            ∃ t, stepN 3 s = .next t ∧
              t.rspPort = some { pri := 0xdeadbeef#32 + seed1 + seed2, sec := 0xdeadbeef#32 + seed1 }

/-- 44_finalizer_avalanche.md section 4: where INIT gives zero accumulators and every message byte is zero, the call
returns (0, 0), whatever its length. -/
def Obligations.AllZeroCallReturnsZero : Prop :=
  ∀ (s : State) (n : Nat) (seed1 : Word), 0xdeadbeef#32 + BitVec.ofNat 32 n + seed1 = 0#32 →
    s.presents { seed1 := seed1, seed2 := 0#32, len := n } → s.answers (List.replicate n 0#8) →
      ∃ t, stepN (uopCount n) s = .next t ∧ t.rspPort = some { pri := 0#32, sec := 0#32 }

/-- 70_reset_and_hazards.md section 2: from the reset state, once the host has placed the message and presented the
command (the model's load, assumption 15), the engine answers hashPair of that message. -/
def Obligations.LoadedCommandAnswersFromReset : Prop :=
  ∀ (msg : List Byte) (seed1 seed2 : Word), msg.length < 2 ^ 32 →
    ∃ t, stepN (uopCount msg.length)
        (State.reset.load msg { seed1 := seed1, seed2 := seed2, len := msg.length }) = .next t ∧
      t.rspPort = some (hashPair msg seed1 seed2)

/-! ### The message memory -/

/-- 20_memory.md sections 1 and 5 (the canonical list is the model's, assumption 5): two memories in canonical form
that answer every offset alike are equal data. -/
def Obligations.CanonicalMemoriesAreEqualAsData : Prop :=
  ∀ (lenW : Nat) (m m' : Memory), m.wf lenW = true → m'.wf lenW = true → (∀ o, m.read o = m'.read o) → m = m'

/-- 70_reset_and_hazards.md section 3, duty 1 (loading a message is the model's, assumption 15): after the host has placed a
message at offset 0 its bytes are answered there, offsets behind it read as before, and the memory stays canonical. -/
def Obligations.PlacedMessageIsAnswered : Prop :=
  ∀ (s : State) (msg : List Byte) (c : Command), msg.length ≤ 2 ^ s.lenW →
    (s.load msg c).answers msg ∧ (∀ o, msg.length ≤ o → (s.load msg c).mem.read o = s.mem.read o) ∧
      (s.mem.wf s.lenW = true → (s.load msg c).mem.wf s.lenW = true)
end

