-- ==== Sys2Proof/Laws/Decode.lean ====
section
/-! SUPPORT. Decoding and encoding: what each answer of the decoder says. -/

namespace Sys2Proof

theorem cmdFields_isSome_iff {lenW w : Nat} : (cmdFields lenW w).isSome ↔ w < 2 ^ (64 + lenW) := by
  unfold cmdFields
  split <;> simp_all

theorem cmdFields_len_lt {lenW w : Nat} {c : Command} (h : cmdFields lenW w = some c) : c.len < 2 ^ lenW := by
  unfold cmdFields at h
  split at h
  · next hw =>
    cases h
    rw [Nat.pow_add] at hw
    exact Nat.div_lt_of_lt_mul hw
  · cases h

/-- The fields of the word of a command are the command. -/
theorem cmdFields_encodeCmd {lenW : Nat} {c : Command} (h : c.len < 2 ^ lenW) :
    cmdFields lenW (encodeCmd c) = some c := by
  obtain ⟨s1, s2, len⟩ := c
  have h1 := s1.isLt
  have h2 := s2.isLt
  have hb : encodeCmd ⟨s1, s2, len⟩ < 2 ^ (64 + lenW) := by
    rw [Nat.pow_add]
    simp only [encodeCmd] at *
    have : len + 1 ≤ 2 ^ lenW := h
    nlinarith
  unfold cmdFields
  rw [if_pos hb]
  simp only [encodeCmd, Option.some.injEq, Command.mk.injEq]
  refine ⟨?_, ?_, ?_⟩
  · apply BitVec.eq_of_toNat_eq
    simp only [BitVec.toNat_ofNat]
    omega
  · apply BitVec.eq_of_toNat_eq
    simp only [BitVec.toNat_ofNat]
    omega
  · omega

/-- A word is the encoding of its own fields. -/
theorem encodeCmd_of_cmdFields {lenW w : Nat} {c : Command} (h : cmdFields lenW w = some c) : encodeCmd c = w := by
  unfold cmdFields at h
  split at h
  · cases h
    simp only [encodeCmd, BitVec.toNat_ofNat]
    omega
  · cases h

/-- A decoded command word is HASH or HASHPAIR over its fields. -/
theorem decodeCmd_ok {lenW w : Nat} {i : Instr} (h : decodeCmd lenW w = .ok i) :
    ∃ c, cmdFields lenW w = some c ∧
      ((c.seed2 = 0#32 ∧ i = .hash c.seed1 c.len) ∨ (c.seed2 ≠ 0#32 ∧ i = .hashpair c.seed1 c.seed2 c.len)) := by
  unfold decodeCmd at h
  split at h
  · cases h
  · next c hc =>
    refine ⟨c, hc, ?_⟩
    split at h
    · exact .inl ⟨‹_›, by cases h; rfl⟩
    · exact .inr ⟨‹_›, by cases h; rfl⟩

/-- A decoded code is one of the five micro-operations with the code of its row (R73). -/
theorem decodeUop_ok {code : UopCode} {i : Instr} (h : decodeUop code = .ok i) :
    (i = .init ∧ code = 0x10#8) ∨ (i = .block ∧ code = 0x20#8) ∨
      (∃ r, r ≤ 11 ∧ i = .tail r ∧ code = uopCode 3 r) ∨ (i = .final ∧ code = 0x40#8) ∨
      (i = .out ∧ code = 0x50#8) := by
  have key : ∀ c : BitVec 8, ∀ j, decodeUop c = .ok j →
      (j = .init ∧ c = 0x10#8) ∨ (j = .block ∧ c = 0x20#8) ∨
      ((uopR c) ≤ 11 ∧ j = .tail (uopR c) ∧ c = uopCode 3 (uopR c)) ∨ (j = .final ∧ c = 0x40#8) ∨
      (j = .out ∧ c = 0x50#8) := by
    intro c
    have : ∀ n : Fin 256, ∀ j ∈ (decodeUop (BitVec.ofFin n)).toOption,
        (j = .init ∧ BitVec.ofFin n = 0x10#8) ∨ (j = .block ∧ BitVec.ofFin n = 0x20#8) ∨
        (uopR (BitVec.ofFin n) ≤ 11 ∧ j = .tail (uopR (BitVec.ofFin n)) ∧
          BitVec.ofFin n = uopCode 3 (uopR (BitVec.ofFin n))) ∨
        (j = .final ∧ BitVec.ofFin n = 0x40#8) ∨ (j = .out ∧ BitVec.ofFin n = 0x50#8) := by
      decide +kernel
    intro j hj
    exact this c.toFin j (by rw [BitVec.ofFin_toFin, hj]; rfl)
  rcases key code i h with h | h | h | h | h
  · exact .inl h
  · exact .inr (.inl h)
  · exact .inr (.inr (.inl ⟨_, h⟩))
  · exact .inr (.inr (.inr (.inl h)))
  · exact .inr (.inr (.inr (.inr h)))

@[simp] theorem decodeUop_init : decodeUop (uopCode 1 0) = .ok .init := rfl
@[simp] theorem decodeUop_block : decodeUop (uopCode 2 0) = .ok .block := rfl
@[simp] theorem decodeUop_final : decodeUop (uopCode 4 0) = .ok .final := rfl
@[simp] theorem decodeUop_out : decodeUop (uopCode 5 0) = .ok .out := rfl

theorem decodeUop_tail {r : Nat} (h : r ≤ 11) : decodeUop (uopCode 3 r) = .ok (.tail r) := by
  interval_cases r <;> rfl

end Sys2Proof
end

