-- ==== Sys2Proof/Laws/State.lean ====
section
/-! SUPPORT. One lemma per field per update of the state, true by unfolding the update once. -/

namespace Sys2Proof.Machine

variable (s : State) (code : UopCode) (os : List Nat) (c : Command)

/-! ### No pulse -/
@[simp] theorem State.quiet_lenW : s.quiet.lenW = s.lenW := rfl
@[simp] theorem State.quiet_phase : s.quiet.phase = s.phase := rfl
@[simp] theorem State.quiet_call : s.quiet.call = s.call := rfl
@[simp] theorem State.quiet_result : s.quiet.result = s.result := rfl
@[simp] theorem State.quiet_rst : s.quiet.rst = s.rst := rfl
@[simp] theorem State.quiet_cmds : s.quiet.cmds = s.cmds := rfl
@[simp] theorem State.quiet_rspReady : s.quiet.rspReady = s.rspReady := rfl
@[simp] theorem State.quiet_mem : s.quiet.mem = s.mem := rfl
@[simp] theorem State.quiet_trc : s.quiet.trc = none := rfl
@[simp] theorem State.quiet_reads : s.quiet.reads = [] := rfl

/-! ### The pulse of a completed micro-operation -/
@[simp] theorem State.pulse_lenW : (s.pulse code os).lenW = s.lenW := rfl
@[simp] theorem State.pulse_phase : (s.pulse code os).phase = s.phase := rfl
@[simp] theorem State.pulse_call : (s.pulse code os).call = s.call := rfl
@[simp] theorem State.pulse_result : (s.pulse code os).result = s.result := rfl
@[simp] theorem State.pulse_rst : (s.pulse code os).rst = s.rst := rfl
@[simp] theorem State.pulse_cmds : (s.pulse code os).cmds = s.cmds := rfl
@[simp] theorem State.pulse_rspReady : (s.pulse code os).rspReady = s.rspReady := rfl
@[simp] theorem State.pulse_mem : (s.pulse code os).mem = s.mem := rfl
@[simp] theorem State.pulse_trc : (s.pulse code os).trc = some code := rfl
@[simp] theorem State.pulse_reads : (s.pulse code os).reads = os := rfl

/-! ### A cycle of reset -/
@[simp] theorem State.applyReset_lenW : s.applyReset.lenW = s.lenW := rfl
@[simp] theorem State.applyReset_phase : s.applyReset.phase = .idle := rfl
@[simp] theorem State.applyReset_call : s.applyReset.call = none := rfl
@[simp] theorem State.applyReset_result : s.applyReset.result = none := rfl
@[simp] theorem State.applyReset_rst : s.applyReset.rst = s.rst := rfl
@[simp] theorem State.applyReset_cmds : s.applyReset.cmds = s.cmds := rfl
@[simp] theorem State.applyReset_rspReady : s.applyReset.rspReady = s.rspReady := rfl
@[simp] theorem State.applyReset_mem : s.applyReset.mem = s.mem := rfl
@[simp] theorem State.applyReset_trc : s.applyReset.trc = none := rfl
@[simp] theorem State.applyReset_reads : s.applyReset.reads = [] := rfl

/-! ### The acceptance of a command -/
@[simp] theorem State.accept_lenW : (s.accept c).lenW = s.lenW := rfl
@[simp] theorem State.accept_phase : (s.accept c).phase = .blocks := rfl
@[simp] theorem State.accept_call : (s.accept c).call = some (initCall c) := rfl
@[simp] theorem State.accept_result : (s.accept c).result = s.result := rfl
@[simp] theorem State.accept_rst : (s.accept c).rst = s.rst := rfl
@[simp] theorem State.accept_cmds : (s.accept c).cmds = takeCommand s.lenW c s.cmds := rfl
@[simp] theorem State.accept_rspReady : (s.accept c).rspReady = s.rspReady := rfl
@[simp] theorem State.accept_mem : (s.accept c).mem = s.mem := rfl
@[simp] theorem State.accept_trc : (s.accept c).trc = some (uopCode 1 0) := rfl
@[simp] theorem State.accept_reads : (s.accept c).reads = [] := rfl

/-! ### The registers INIT makes live -/
@[simp] theorem initCall_acc : (initCall c).acc = initAcc c := rfl
@[simp] theorem initCall_off : (initCall c).off = 0 := rfl
@[simp] theorem initCall_rem : (initCall c).rem = c.len := rfl
@[simp] theorem initCall_nf : (initCall c).nf = needFinal c.len := rfl

end Sys2Proof.Machine
end

