-- ==== Sys2Proof/Laws/Ops.lean ====
section
/-! SUPPORT. What each shared operation can do, said once. -/

namespace Sys2Proof.Machine

variable {s t : State}

theorem whenIssued_next {p : Prop} [Decidable p] {k : Host.Outcome State Fault Refusal}
    (h : whenIssued p k = .next t) : p ∧ k = .next t := by
  unfold whenIssued at h
  split at h
  · exact ⟨‹_›, h⟩
  · cases h

theorem whenIssued_of {p : Prop} [Decidable p] (k : Host.Outcome State Fault Refusal) (hp : p) :
    whenIssued p k = k := if_pos hp

theorem whenIssued_not {p : Prop} [Decidable p] (k : Host.Outcome State Fault Refusal) (hp : ¬p) :
    whenIssued p k = .refused .notIssuedHere := if_neg hp

theorem withCall_next {k : Call → Host.Outcome State Fault Refusal} (h : s.withCall k = .next t) :
    ∃ r, s.call = some r ∧ k r = .next t := by
  unfold State.withCall at h
  split at h
  · exact ⟨_, ‹_›, h⟩
  · cases h

theorem withCall_of {r : Call} (k : Call → Host.Outcome State Fault Refusal) (hr : s.call = some r) :
    s.withCall k = k r := by
  simp [State.withCall, hr]

theorem withResult_next {k : Result → Host.Outcome State Fault Refusal} (h : s.withResult k = .next t) :
    ∃ r, s.result = some r ∧ k r = .next t := by
  unfold State.withResult at h
  split at h
  · exact ⟨_, ‹_›, h⟩
  · cases h

theorem withResult_of {r : Result} (k : Result → Host.Outcome State Fault Refusal) (hr : s.result = some r) :
    s.withResult k = k r := by
  simp [State.withResult, hr]

/-- A micro-operation that reads either has all its bytes or is held with nothing changed. -/
theorem withBytes_next {o n : Nat} {k : List Byte → Host.Outcome State Fault Refusal}
    (h : s.withBytes o n k = .next t) :
    (∃ xs, s.readMsg o n = .ok xs ∧ k xs = .next t) ∨
      (∃ p, s.readMsg o n = .error (.unanswered p) ∧ t = s.quiet) := by
  unfold State.withBytes at h
  split at h
  · exact .inl ⟨_, ‹_›, h⟩
  · exact .inr ⟨_, ‹_›, by cases h; rfl⟩
  · cases h

theorem withBytes_of {o n : Nat} {xs : List Byte} (k : List Byte → Host.Outcome State Fault Refusal)
    (h : s.readMsg o n = .ok xs) : s.withBytes o n k = k xs := by
  simp [State.withBytes, h]

theorem withBytes_held {o n p : Nat} (k : List Byte → Host.Outcome State Fault Refusal)
    (h : s.readMsg o n = .error (.unanswered p)) : s.withBytes o n k = .next s.quiet := by
  simp [State.withBytes, h]

theorem readByte_of {o : Nat} {x : Byte} (ho : o < 2 ^ s.lenW) (h : s.mem.read o = some x) :
    s.readByte o = .ok x := by
  simp [State.readByte, ho, h]

/-- The reads give bytes exactly when every offset is in the space and answered. -/
theorem readMsg_ok_iff {o n : Nat} {xs : List Byte} :
    s.readMsg o n = .ok xs ↔
      xs.length = n ∧ ∀ i, (hi : i < n) → o + i < 2 ^ s.lenW ∧ s.mem.read (o + i) = xs[i]? := by
  induction n generalizing o xs with
  | zero =>
    simp only [State.readMsg, Except.ok.injEq]
    constructor
    · rintro rfl
      exact ⟨rfl, fun i hi => absurd hi (Nat.not_lt_zero i)⟩
    · rintro ⟨h, -⟩
      exact (List.length_eq_zero_iff.mp h).symm
  | succ n ih =>
    simp only [State.readMsg]
    constructor
    · intro h
      split at h
      · cases h
      · next x hx =>
        split at h
        · cases h
        · next ys hy =>
          cases h
          obtain ⟨hl, hr⟩ := ih.mp hy
          have hx' : o < 2 ^ s.lenW ∧ s.mem.read o = some x := by
            unfold State.readByte at hx
            split at hx
            · split at hx <;> simp_all
            · cases hx
          refine ⟨by simp [hl], fun i hi => ?_⟩
          cases i with
          | zero => simpa using hx'
          | succ i =>
            have := hr i (by omega)
            rw [show o + (i + 1) = o + 1 + i by omega]
            simpa using this
    · rintro ⟨hl, hr⟩
      cases xs with
      | nil => simp at hl
      | cons x ys =>
        have h0 := hr 0 (by omega)
        rw [readByte_of (o := o) h0.1 (by simpa using h0.2)]
        have : s.readMsg (o + 1) n = .ok ys := by
          refine ih.mpr ⟨by simpa using hl, fun i hi => ?_⟩
          have := hr (i + 1) (by omega)
          rw [show o + (i + 1) = o + 1 + i by omega] at this
          simpa using this
        simp [this]

/-- The reads stop at an unanswered offset when all are in the space and some is not answered. -/
theorem readMsg_unanswered {o n i : Nat} (hs : o + n ≤ 2 ^ s.lenW) (hi : i < n) (h : s.mem.read (o + i) = none) :
    ∃ p, s.readMsg o n = .error (.unanswered p) := by
  induction n generalizing o i with
  | zero => omega
  | succ n ih =>
    simp only [State.readMsg]
    cases hx : s.mem.read o with
    | none => exact ⟨o, by simp [State.readByte, hx, show o < 2 ^ s.lenW by omega]⟩
    | some x =>
      rw [readByte_of (by omega) hx]
      cases i with
      | zero => simp [hx] at h
      | succ i =>
        obtain ⟨p, hp⟩ := ih (o := o + 1) (i := i) (by omega) (by omega)
          (by rw [show o + 1 + i = o + (i + 1) by omega]; exact h)
        exact ⟨p, by simp [hp]⟩

/-- The reads stop at the first unanswered offset, and say which one it is. -/
theorem readMsg_unanswered_iff {o n p : Nat} :
    s.readMsg o n = .error (.unanswered p) ↔
      ∃ i, i < n ∧ p = o + i ∧ p < 2 ^ s.lenW ∧ s.mem.read p = none ∧
        ∀ j, j < i → o + j < 2 ^ s.lenW ∧ (s.mem.read (o + j)).isSome = true := by
  induction n generalizing o with
  | zero => simp [State.readMsg]
  | succ n ih =>
    simp only [State.readMsg, State.readByte]
    by_cases ho : o < 2 ^ s.lenW
    · rw [if_pos ho]
      cases hx : s.mem.read o with
      | none =>
        constructor
        · intro h
          cases h
          exact ⟨0, by omega, rfl, ho, hx, by omega⟩
        · rintro ⟨i, -, rfl, -, -, hj⟩
          cases i with
          | zero => rfl
          | succ i => simpa [hx] using (hj 0 (by omega)).2
      | some x =>
        have step : (match s.readMsg (o + 1) n with
            | .error e => .error e
            | .ok xs => .ok (x :: xs) : Except Stall (List Byte)) = .error (.unanswered p) ↔
            s.readMsg (o + 1) n = .error (.unanswered p) := by
          cases s.readMsg (o + 1) n <;> simp
        refine step.trans (ih.trans ⟨?_, ?_⟩)
        · rintro ⟨i, hi, rfl, hp, hr, hj⟩
          refine ⟨i + 1, by omega, by omega, hp, hr, fun j hji => ?_⟩
          cases j with
          | zero => exact ⟨ho, by simp [hx]⟩
          | succ j => simpa [Nat.add_assoc, Nat.add_comm 1] using hj j (by omega)
        · rintro ⟨i, hi, rfl, hp, hr, hj⟩
          cases i with
          | zero => simp [hx] at hr
          | succ i =>
            exact ⟨i, by omega, by omega, hp, hr, fun j hji => by
              simpa [Nat.add_assoc, Nat.add_comm 1] using hj (j + 1) (by omega)⟩
    · rw [if_neg ho]
      constructor
      · intro h
        cases h
      · rintro ⟨i, -, rfl, hp, -⟩
        exact absurd (by omega) ho

/-- What the reads give depends on the answers and the message space alone. -/
theorem readMsg_congr {o n : Nat} (hm : t.mem = s.mem) (hl : t.lenW = s.lenW) : t.readMsg o n = s.readMsg o n := by
  induction n generalizing o with
  | zero => rfl
  | succ n ih => simp only [State.readMsg, State.readByte, hm, hl, ih]

/-- Reads inside the message space never leave it. -/
theorem readMsg_not_outside {o n p : Nat} (hs : o + n ≤ 2 ^ s.lenW) : s.readMsg o n ≠ .error (.outside p) := by
  induction n generalizing o with
  | zero => simp [State.readMsg]
  | succ n ih =>
    intro h
    simp only [State.readMsg, State.readByte, show o < 2 ^ s.lenW by omega, if_true] at h
    cases hx : s.mem.read o with
    | none => simp [hx] at h
    | some x =>
      simp only [hx] at h
      split at h
      · next e he =>
        cases h
        exact ih (by omega) he
      · cases h

theorem takeCommand_head {lenW w : Nat} {c : Command} {ws : List Nat} (h : cmdFields lenW w = some c) :
    takeCommand lenW c (w :: ws) = ws := by
  simp [takeCommand, h]

/-- The commands still waiting after a handshake are some of those that waited before it. -/
theorem mem_takeCommand {lenW w : Nat} {c : Command} {ws : List Nat} (h : w ∈ takeCommand lenW c ws) : w ∈ ws := by
  cases ws with
  | nil => simp [takeCommand] at h
  | cons v vs =>
    simp only [takeCommand] at h
    split at h
    · exact List.mem_cons_of_mem _ h
    · exact h

end Sys2Proof.Machine
end

