-- ==== Sys2Proof/Laws/Meanings.lean ====
section
/-! SUPPORT. One inversion lemma per meaning: everything it can do when it answers a next state. -/

namespace Sys2Proof.Machine

variable {s t : State}

/-- A host command is accepted in IDLE and waits in every other phase. -/
theorem issue_next {c : Command} (h : s.issue c = .next t) :
    (s.phase = .idle ∧ t = s.accept c) ∨ (s.phase ≠ .idle ∧ t = s.quiet) := by
  unfold State.issue at h
  split at h
  · exact .inl ⟨‹_›, by cases h; rfl⟩
  · exact .inr ⟨‹_›, by cases h; rfl⟩

theorem execInit_next (h : execInit s = .next t) :
    ∃ w ws c, s.phase = .idle ∧ s.cmds = w :: ws ∧ cmdFields s.lenW w = some c ∧ t = s.accept c := by
  obtain ⟨hp, h⟩ := whenIssued_next h
  split at h
  · cases h
  · next w ws hw =>
    split at h
    · cases h
    · next c hc =>
      cases h
      exact ⟨w, ws, c, hp, hw, hc, rfl⟩

theorem execBlock_next (h : execBlock s = .next t) :
    ∃ r, s.phase = .blocks ∧ s.call = some r ∧ 12 ≤ r.rem ∧
      ((∃ xs, s.readMsg r.off 12 = .ok xs ∧
          t = { s with
            call := some { r with acc := mixBytes r.acc xs, off := r.off + 12, rem := r.rem - 12 }
            trc := some (uopCode 2 0)
            reads := readOffsets r.off 12 }) ∨
        (∃ p, s.readMsg r.off 12 = .error (.unanswered p) ∧ t = s.quiet)) := by
  obtain ⟨hp, h⟩ := whenIssued_next h
  obtain ⟨r, hr, h⟩ := withCall_next h
  obtain ⟨hm, h⟩ := whenIssued_next h
  refine ⟨r, hp, hr, hm, ?_⟩
  rcases withBytes_next h with ⟨xs, hx, h⟩ | ⟨p, hp, h⟩
  · exact .inl ⟨xs, hx, by cases h; rfl⟩
  · exact .inr ⟨p, hp, h⟩

/-- BLOCK with its bytes at hand. -/
theorem execBlock_of {r : Call} {xs : List Byte} (hp : s.phase = .blocks) (hr : s.call = some r) (hm : 12 ≤ r.rem)
    (hx : s.readMsg r.off 12 = .ok xs) :
    execBlock s = .next ({ s with
      call := some { r with acc := mixBytes r.acc xs, off := r.off + 12, rem := r.rem - 12 } }.pulse (uopCode 2 0)
        (readOffsets r.off 12)) := by
  unfold execBlock
  rw [whenIssued_of _ hp, withCall_of _ hr, whenIssued_of _ hm, withBytes_of _ hx]

/-- BLOCK with a read unanswered. -/
theorem execBlock_held {r : Call} {p : Nat} (hp : s.phase = .blocks) (hr : s.call = some r) (hm : 12 ≤ r.rem)
    (hx : s.readMsg r.off 12 = .error (.unanswered p)) : execBlock s = .next s.quiet := by
  unfold execBlock
  rw [whenIssued_of _ hp, withCall_of _ hr, whenIssued_of _ hm, withBytes_held _ hx]

theorem execTail_next {r : Nat} (h : execTail r s = .next t) :
    ∃ g, s.phase = .blocks ∧ s.call = some g ∧ g.rem < 12 ∧ r = g.rem ∧
      ((∃ xs, s.readMsg g.off r = .ok xs ∧
          t = { s with
            phase := tailPhase g.nf
            call := some { g with acc := tailFold g.acc r xs, off := g.off + r, rem := 0 }
            trc := some (uopCode 3 r)
            reads := readOffsets g.off r }) ∨
        (∃ p, s.readMsg g.off r = .error (.unanswered p) ∧ t = s.quiet)) := by
  obtain ⟨hp, h⟩ := whenIssued_next h
  obtain ⟨g, hg, h⟩ := withCall_next h
  obtain ⟨hm, h⟩ := whenIssued_next h
  refine ⟨g, hp, hg, hm.1, hm.2, ?_⟩
  rcases withBytes_next h with ⟨xs, hx, h⟩ | ⟨p, hp, h⟩
  · exact .inl ⟨xs, hx, by cases h; rfl⟩
  · exact .inr ⟨p, hp, h⟩

/-- TAIL with its bytes at hand. -/
theorem execTail_of {g : Call} {xs : List Byte} (hp : s.phase = .blocks) (hg : s.call = some g) (hm : g.rem < 12)
    (hx : s.readMsg g.off g.rem = .ok xs) :
    execTail g.rem s = .next ({ s with
      phase := tailPhase g.nf
      call := some { g with acc := tailFold g.acc g.rem xs, off := g.off + g.rem, rem := 0 } }.pulse (uopCode 3 g.rem)
        (readOffsets g.off g.rem)) := by
  unfold execTail
  rw [whenIssued_of _ hp, withCall_of _ hg, whenIssued_of _ ⟨hm, rfl⟩, withBytes_of _ hx]

/-- TAIL with a read unanswered. -/
theorem execTail_held {g : Call} {p : Nat} (hp : s.phase = .blocks) (hg : s.call = some g) (hm : g.rem < 12)
    (hx : s.readMsg g.off g.rem = .error (.unanswered p)) : execTail g.rem s = .next s.quiet := by
  unfold execTail
  rw [whenIssued_of _ hp, withCall_of _ hg, whenIssued_of _ ⟨hm, rfl⟩, withBytes_held _ hx]

theorem execFinal_next (h : execFinal s = .next t) :
    ∃ r, s.phase = .fin ∧ s.call = some r ∧
      t = { s with
        phase := .outp
        call := some { r with acc := finalround r.acc }
        trc := some (uopCode 4 0)
        reads := [] } := by
  obtain ⟨hp, h⟩ := whenIssued_next h
  obtain ⟨r, hr, h⟩ := withCall_next h
  exact ⟨r, hp, hr, by cases h; rfl⟩

theorem execOut_next (h : execOut s = .next t) :
    ∃ r, s.phase = .outp ∧ s.call = some r ∧
      t = { s with
        phase := .resp
        call := none
        result := some { pri := r.acc.c, sec := r.acc.b }
        trc := some (uopCode 5 0)
        reads := [] } := by
  obtain ⟨hp, h⟩ := whenIssued_next h
  obtain ⟨r, hr, h⟩ := withCall_next h
  exact ⟨r, hp, hr, by cases h; rfl⟩

theorem respond_next (h : s.respond = .next t) :
    ∃ r, s.phase = .resp ∧ s.rspReady = true ∧ s.result = some r ∧
      t = { s with phase := .idle, result := none, trc := none, reads := [] } := by
  obtain ⟨hp, h⟩ := whenIssued_next h
  obtain ⟨r, hr, h⟩ := withResult_next h
  exact ⟨r, hp.1, hp.2, hr, by cases h; rfl⟩

/-- A step is a cycle of reset, a wait, the response handshake, or one decoded instruction. -/
theorem step_next (h : step s = .next t) :
    (s.rst = true ∧ t = s.applyReset) ∨
      (s.rst = false ∧ s.nextAction = .ok .wait ∧ t = s.quiet) ∨
      (s.rst = false ∧ s.nextAction = .ok .rspack ∧ s.respond = .next t) ∨
      (∃ w i, s.rst = false ∧ s.nextAction = .ok (.run w) ∧ decode s.lenW w = .ok i ∧ exec i s = .next t) := by
  unfold step at h
  split at h
  · exact .inl ⟨‹_›, by cases h; rfl⟩
  · next hr =>
    have hr : s.rst = false := by simpa using hr
    split at h
    · cases h
    · exact .inr (.inl ⟨hr, ‹_›, by cases h; rfl⟩)
    · exact .inr (.inr (.inl ⟨hr, ‹_›, h⟩))
    · split at h
      · exact .inr (.inr (.inr ⟨_, _, hr, ‹_›, ‹_›, h⟩))
      · cases h

theorem step_of_reset (h : s.rst = true) : step s = .next s.applyReset := by
  simp [step, h]

theorem step_of_wait (h : s.rst = false) (ha : s.nextAction = .ok .wait) : step s = .next s.quiet := by
  simp [step, h, ha]

theorem step_of_rspack (h : s.rst = false) (ha : s.nextAction = .ok .rspack) : step s = s.respond := by
  simp [step, h, ha]

theorem step_of_run {w : Encoded} {i : Instr} (h : s.rst = false) (ha : s.nextAction = .ok (.run w))
    (hd : decode s.lenW w = .ok i) : step s = exec i s := by
  simp [step, h, ha, hd]

end Sys2Proof.Machine
end

