-- ==== Sys2Proof/Laws/Memory.lean ====
section
/-! SUPPORT. The message memory: read after write, and every operation keeps the canonical form. -/

namespace Sys2Proof.Machine

theorem Memory.read_write_same (m : Memory) (o : Nat) (v : Byte) : (m.write o v).read o = some v := by
  induction m with
  | nil => simp [Memory.write, Memory.read]
  | cons e m ih =>
    obtain ⟨k, x⟩ := e
    simp only [Memory.write]
    split
    · simp [Memory.read]
    · split
      · simp [Memory.read]
      · simp [Memory.read, ih]; omega

theorem Memory.read_write_other (m : Memory) {o p : Nat} (v : Byte) (h : p ≠ o) :
    (m.write o v).read p = m.read p := by
  induction m with
  | nil => simp [Memory.write, Memory.read]; omega
  | cons e m ih =>
    obtain ⟨k, x⟩ := e
    simp only [Memory.write]
    split
    · simp only [Memory.read]
      rw [if_neg (by omega)]
    · split
      · simp only [Memory.read]
        rw [if_neg (by omega), if_neg (by omega)]
      · simp [Memory.read, ih]

theorem Memory.risingIn_mono {m : Memory} {lo lo' hi : Nat} (h : Memory.risingIn lo hi m = true) (hl : lo' ≤ lo) :
    Memory.risingIn lo' hi m = true := by
  cases m with
  | nil => rfl
  | cons e m =>
    obtain ⟨k, x⟩ := e
    simp only [Memory.risingIn, Bool.and_eq_true, decide_eq_true_eq] at h ⊢
    exact ⟨⟨by omega, h.1.2⟩, h.2⟩

/-- Nothing is listed below the first offset a rising memory may list. -/
theorem Memory.read_below {m : Memory} {lo hi o : Nat} (h : Memory.risingIn lo hi m = true) (ho : o < lo) :
    m.read o = none := by
  induction m generalizing lo with
  | nil => rfl
  | cons e m ih =>
    obtain ⟨k, x⟩ := e
    simp only [Memory.risingIn, Bool.and_eq_true, decide_eq_true_eq] at h
    simp only [Memory.read]
    rw [if_neg (by omega)]
    exact ih h.2 (by omega)

/-- Nothing is listed at or above the end of the message space. -/
theorem Memory.read_outside {m : Memory} {lo hi o : Nat} (h : Memory.risingIn lo hi m = true) (ho : hi ≤ o) :
    m.read o = none := by
  induction m generalizing lo with
  | nil => rfl
  | cons e m ih =>
    obtain ⟨k, x⟩ := e
    simp only [Memory.risingIn, Bool.and_eq_true, decide_eq_true_eq] at h
    simp only [Memory.read]
    rw [if_neg (by omega)]
    exact ih h.2

theorem Memory.risingIn_write {m : Memory} {lo hi o : Nat} (v : Byte) (h : Memory.risingIn lo hi m = true)
    (hl : lo ≤ o) (hh : o < hi) : Memory.risingIn lo hi (m.write o v) = true := by
  induction m generalizing lo with
  | nil => simp [Memory.write, Memory.risingIn, hl, hh]
  | cons e m ih =>
    obtain ⟨k, x⟩ := e
    simp only [Memory.risingIn, Bool.and_eq_true, decide_eq_true_eq] at h
    simp only [Memory.write]
    split
    · simp only [Memory.risingIn, Bool.and_eq_true, decide_eq_true_eq]
      exact ⟨⟨hl, hh⟩, ⟨by omega, h.1.2⟩, h.2⟩
    · split
      · subst o
        simp only [Memory.risingIn, Bool.and_eq_true, decide_eq_true_eq]
        exact ⟨⟨hl, hh⟩, h.2⟩
      · simp only [Memory.risingIn, Bool.and_eq_true, decide_eq_true_eq]
        exact ⟨h.1, ih h.2 (by omega)⟩

theorem Memory.wf_write {m : Memory} {lenW o : Nat} (v : Byte) (h : m.wf lenW = true) (ho : o < 2 ^ lenW) :
    (m.write o v).wf lenW = true :=
  Memory.risingIn_write v h (Nat.zero_le o) ho

theorem Memory.risingIn_erase {m : Memory} {lo hi : Nat} (o : Nat) (h : Memory.risingIn lo hi m = true) :
    Memory.risingIn lo hi (m.erase o) = true := by
  induction m generalizing lo with
  | nil => rfl
  | cons e m ih =>
    obtain ⟨k, x⟩ := e
    simp only [Memory.risingIn, Bool.and_eq_true, decide_eq_true_eq] at h
    simp only [Memory.erase]
    split
    · exact Memory.risingIn_mono h.2 (by omega)
    · simp only [Memory.risingIn, Bool.and_eq_true, decide_eq_true_eq]
      exact ⟨h.1, ih h.2⟩

theorem Memory.wf_erase {m : Memory} {lenW : Nat} (o : Nat) (h : m.wf lenW = true) : (m.erase o).wf lenW = true :=
  Memory.risingIn_erase o h

theorem Memory.read_erase_same {m : Memory} {lo hi : Nat} (o : Nat) (h : Memory.risingIn lo hi m = true) :
    (m.erase o).read o = none := by
  induction m generalizing lo with
  | nil => rfl
  | cons e m ih =>
    obtain ⟨k, x⟩ := e
    simp only [Memory.risingIn, Bool.and_eq_true, decide_eq_true_eq] at h
    simp only [Memory.erase]
    split
    · exact Memory.read_below h.2 (by omega)
    · simp only [Memory.read]
      rw [if_neg (by omega)]
      exact ih h.2

theorem Memory.read_erase_other (m : Memory) {o p : Nat} (h : p ≠ o) : (m.erase o).read p = m.read p := by
  induction m with
  | nil => rfl
  | cons e m ih =>
    obtain ⟨k, x⟩ := e
    simp only [Memory.erase]
    split
    · simp only [Memory.read]
      rw [if_neg (by omega)]
    · simp [Memory.read, ih]

theorem Memory.wf_writeAll {m : Memory} {lenW o : Nat} (vs : List Byte) (h : m.wf lenW = true)
    (ho : o + vs.length ≤ 2 ^ lenW) : (m.writeAll o vs).wf lenW = true := by
  induction vs generalizing m o with
  | nil => exact h
  | cons v vs ih =>
    simp only [List.length_cons] at ho
    exact ih (Memory.wf_write v h (by omega)) (by omega)

end Sys2Proof.Machine
end

