-- ==== Sys2Proof/Laws/Operands.lean ====
section
/-! SUPPORT. Rotation, byte assembly and slices of a message. -/

namespace Sys2Proof.Machine

/-- The spec's definition of rotl is BitVec's rotation (R94). -/
theorem rotl_eq_rotateLeft (x : Word) (k : Fin 32) : rotl x k = x.rotateLeft k.val := by
  have hk := k.isLt
  unfold rotl
  rw [BitVec.rotateLeft_def, BitVec.add_eq_or_of_and_eq_zero]
  · rw [Nat.mod_eq_of_lt hk]
  · ext i hi
    simp only [BitVec.getElem_and, BitVec.getElem_shiftLeft, BitVec.getElem_ushiftRight, BitVec.getElem_zero]
    by_cases h : i < k.val
    · simp [h]
    · simp [h, show 32 ≤ 32 - k.val + i by omega]

@[simp] theorem partLe_nil : partLe [] = 0#32 := rfl

theorem partLe_four (x0 x1 x2 x3 : Byte) : partLe [x0, x1, x2, x3] = wordLe x0 x1 x2 x3 := by
  simp [partLe, partLeFrom, wordLe, BitVec.add_assoc]

@[simp] theorem sliceOf_zero (xs : List Byte) (o : Nat) : sliceOf xs o 0 = [] := rfl

theorem length_sliceOf (xs : List Byte) (o n : Nat) : (sliceOf xs o n).length = min n (xs.length - o) := by
  simp [sliceOf]

theorem getElem?_sliceOf (xs : List Byte) (o n i : Nat) :
    (sliceOf xs o n)[i]? = if i < n then xs[o + i]? else none := by
  simp only [sliceOf, List.getElem?_take, List.getElem?_drop]

/-- A sliceOf of a sliceOf is a sliceOf of the whole. -/
theorem sliceOf_sliceOf (xs : List Byte) (o n p m : Nat) (h : p + m ≤ n) :
    sliceOf (sliceOf xs o n) p m = sliceOf xs (o + p) m := by
  apply List.ext_getElem?
  intro i
  simp only [getElem?_sliceOf]
  by_cases hi : i < m
  · simp [hi, show p + i < n by omega, Nat.add_assoc]
  · simp [hi]

end Sys2Proof.Machine
end

