-- ==== Sys2Proof/Laws/PerInstr.lean ====
section
/-! SUPPORT. Per-instruction facts, one lemma per constructor: the spelling the decoder prints has the same word and
is well formed with it. -/

namespace Sys2Proof.Laws.CanonicalSpelling

/-- Printing an instruction in the decoder's spelling keeps its word and its well-formedness (R75, R79). -/
def Statement (i : Instr) : Prop :=
  encode i.canonical = encode i ∧ ∀ lenW, i.canonical.wellFormed lenW = i.wellFormed lenW

theorem hashpair (seed1 seed2 : Word) (len : Nat) : Statement (.hashpair seed1 seed2 len) := by
  by_cases h : seed2 = 0#32
  · subst h
    exact ⟨rfl, fun _ => rfl⟩
  · simp [Statement, Instr.canonical, h]

theorem hash (seed : Word) (len : Nat) : Statement (.hash seed len) := ⟨rfl, fun _ => rfl⟩
theorem init : Statement .init := ⟨rfl, fun _ => rfl⟩
theorem block : Statement .block := ⟨rfl, fun _ => rfl⟩
theorem tail (r : Nat) : Statement (.tail r) := ⟨rfl, fun _ => rfl⟩
theorem final : Statement .final := ⟨rfl, fun _ => rfl⟩
theorem out : Statement .out := ⟨rfl, fun _ => rfl⟩

end Sys2Proof.Laws.CanonicalSpelling
end

