-- ==== Sys2Proof/Laws/Ports.lean ====
section
/-! SUPPORT. The message port while the engine is held, and the length of the call in progress. -/

namespace Sys2Proof.Machine

variable {s : State}

/-- The port requests exactly the first unanswered offset of the micro-operation that is due in BLOCKS. -/
theorem msgPort_eq_some_iff {o : Nat} :
    s.msgPort = some o ↔
      s.phase = .blocks ∧ ∃ r, s.call = some r ∧ s.readMsg r.off (dueBytes r.rem) = .error (.unanswered o) := by
  unfold State.msgPort
  constructor
  · intro h
    split at h
    · next r hp hc =>
      split at h
      · next o' ho =>
        cases h
        exact ⟨hp, r, hc, ho⟩
      · cases h
    · cases h
  · rintro ⟨hp, r, hc, h⟩
    simp [hp, hc, h]

@[simp] theorem State.callLength_quiet (s : State) : s.quiet.callLength = s.callLength := rfl

theorem State.callLength_of {r : Call} (h : s.call = some r) : s.callLength = r.off + r.rem := by
  simp [State.callLength, h]

theorem dueBytes_le (rem : Nat) : dueBytes rem ≤ rem ∧ dueBytes rem ≤ 12 := by
  unfold dueBytes
  split <;> omega

end Sys2Proof.Machine
end

