-- ==== Sys2Proof/Laws/Run.lean ====
section
/-! SUPPORT. Runs of several steps: the host's runner, and runs put together. -/

namespace Sys2Proof.Machine

variable {s t u : State} {j k : Nat}

/-- One step of the host's runner, on any machine. -/
theorem core_run_succ (M : Host.Core) (k : Nat) (x : M.State) :
    M.run (k + 1) x =
      match M.step x with
      | .next y => M.run k y
      | .fault r => .fault r
      | .refused r => .refused r := by
  rfl

/-- `stepN` is the host's runner on this machine. -/
theorem stepN_eq_run (k : Nat) (s : State) : stepN k s = Host.Core.run core k s := by
  induction k generalizing s with
  | zero => rfl
  | succ k ih =>
    have hc : Host.Core.step core s = step s := rfl
    have hr := core_run_succ core k s
    rw [hc] at hr
    refine Eq.trans ?_ hr.symm
    rw [stepN]
    cases step s with
    | next t => exact ih t
    | fault r => rfl
    | refused r => rfl

theorem stepN_succ (h : step s = .next t) : stepN (k + 1) s = stepN k t := by
  simp [stepN, h]

theorem traceOf_succ (h : step s = .next t) : traceOf (k + 1) s = t.trc.toList ++ traceOf k t := by
  simp [traceOf, h]

theorem readsOf_succ (h : step s = .next t) : readsOf (k + 1) s = t.reads ++ readsOf k t := by
  simp [readsOf, h]

/-- A run of `j` steps followed by one of `k`, with the codes and the reads of both. -/
theorem stepN_add (h : stepN j s = .next t) :
    stepN (j + k) s = stepN k t ∧ traceOf (j + k) s = traceOf j s ++ traceOf k t ∧
      readsOf (j + k) s = readsOf j s ++ readsOf k t := by
  induction j generalizing s with
  | zero =>
    cases h
    simp [traceOf, readsOf]
  | succ j ih =>
    rw [Nat.add_right_comm]
    cases hs : step s with
    | next v =>
      rw [stepN_succ hs] at h
      obtain ⟨h1, h2, h3⟩ := ih h
      rw [stepN_succ hs, traceOf_succ hs, traceOf_succ hs, readsOf_succ hs, readsOf_succ hs, h1, h2, h3]
      simp
    | fault r => simp [stepN, hs] at h
    | refused r => simp [stepN, hs] at h

end Sys2Proof.Machine
end

