-- ==== Sys2Proof/Tests/Slice0.lean ====
section
/-! SUPPORT. The model's own tests. Expected values are the spec's: 95_test_vectors.md by section number, or worked out
by hand from the rule named. The second half holds one witness for each obligation that has hypotheses: concrete data
that meets all of them together. -/

namespace Sys2Proof.Tests

open Sys2Proof.Machine

/-! ### Small states -/

/-- `n` readable bytes 01 02 03 … at offsets 0, 1, 2, … -/
def counting (n : Nat) : Memory :=
  (List.range n).map fun i => (i, BitVec.ofNat 8 (i + 1))

/-- The same byte at offsets `o` to `o + n - 1`. -/
def filled (o n : Nat) (x : Byte) : Memory :=
  (List.range n).map fun i => (o + i, x)

/-- The message of those bytes. -/
def countingMsg (n : Nat) : List Byte :=
  (List.range n).map fun i => BitVec.ofNat 8 (i + 1)

/-- The engine idle after reset with these command words presented. -/
def offering (ws : List Nat) : State :=
  { State.reset with cmds := ws }

/-- The engine inside a call. -/
def during (phase : Phase) (acc : Acc) (off rem : Nat) (nf : Bool) (m : Memory) : State :=
  { State.reset with phase := phase, call := some { acc := acc, off := off, rem := rem, nf := nf }, mem := m }

/-- The engine with a response. -/
def answering (pri sec : Word) (ready : Bool) : State :=
  { State.reset with phase := .resp, result := some { pri := pri, sec := sec }, rspReady := ready }

def acc1 (x : Word) : Acc := { a := x, b := x, c := x }

/-- The command of program P5: HASHPAIR 25, 0xffffffff, 1. -/
def p5 : Command := { seed1 := 0xffffffff#32, seed2 := 1#32, len := 25 }

/-- Its word, {len, seed2, seed1} (R71). -/
def p5Word : Nat := 0x00000019_00000001_ffffffff

/-- The registers of the call of a state, for looking at a result. -/
def callOf (o : Host.Outcome State Fault Refusal) : Option Call :=
  (nextState o).bind State.call

/-! ### Well-formedness refuses what no field can hold -/

theorem test_wf_hashpair_len_too_long : (Instr.hashpair 0#32 0#32 (2 ^ 32)).wellFormed 32 = false := by decide
theorem test_wf_hashpair_len_longest : (Instr.hashpair 0#32 0#32 (2 ^ 32 - 1)).wellFormed 32 = true := by decide
theorem test_wf_hash_len_too_long : (Instr.hash 0#32 2).wellFormed 1 = false := by decide
theorem test_wf_hash_len_longest : (Instr.hash 0#32 1).wellFormed 1 = true := by decide
theorem test_wf_tail_12 : (Instr.tail 12).wellFormed 32 = false := by decide
theorem test_wf_tail_11 : (Instr.tail 11).wellFormed 32 = true := by decide

/-! ### Decoding, words written out from R71, R73, R79 (section 2.10) -/

theorem test_decode_hashpair :
    decode 32 (.cmd 0x00000019_00000001_ffffffff) = .ok (.hashpair 0xffffffff#32 1#32 25) := by rfl
theorem test_decode_hashpair_all_ones :
    decode 32 (.cmd 0xffffffff_ffffffff_ffffffff) = .ok (.hashpair 0xffffffff#32 0xffffffff#32 0xffffffff) := by rfl
theorem test_decode_hash :
    decode 32 (.cmd 0x0000000d_00000000_12345678) = .ok (.hash 0x12345678#32 13) := by rfl
theorem test_decode_cmd_too_wide : decode 32 (.cmd 0x1_00000000_00000000_00000000) = .error .wordTooWide := by rfl
theorem test_decode_init : decode 32 (.uop 0b0001_0000#8) = .ok .init := by rfl
theorem test_decode_block : decode 32 (.uop 0b0010_0000#8) = .ok .block := by rfl
theorem test_decode_tail_0 : decode 32 (.uop 0b0011_0000#8) = .ok (.tail 0) := by rfl
theorem test_decode_tail_5 : decode 32 (.uop 0b0011_0101#8) = .ok (.tail 5) := by rfl
theorem test_decode_tail_11 : decode 32 (.uop 0b0011_1011#8) = .ok (.tail 11) := by rfl
theorem test_decode_final : decode 32 (.uop 0b0100_0000#8) = .ok .final := by rfl
theorem test_decode_out : decode 32 (.uop 0b0101_0000#8) = .ok .out := by rfl

/-- The invalid codes that section 2.10 lists. -/
theorem test_decode_invalid :
    ([0x3c#8, 0x3d#8, 0x3e#8, 0x3f#8, 0x00#8, 0x11#8, 0x2f#8, 0x41#8, 0x51#8, 0x60#8, 0xff#8].all
      fun code => !isUopCode code) = true := by decide

/-- Every CMD word of section 2.10, encoded. -/
theorem test_encode_cmd :
    encode (.hashpair 0#32 0#32 1) = .cmd 0x00000001_00000000_00000000 ∧
      encode (.hash 0x12345678#32 13) = .cmd 0x0000000d_00000000_12345678 ∧
      encode (.hashpair 0xffffffff#32 1#32 25) = .cmd 0x00000019_00000001_ffffffff := by decide

theorem test_table_words :
    decodeTableWord 96 p5Word = some (.hashpair 0xffffffff#32 1#32 25) ∧ decodeTableWord 8 0x3b = some (.tail 11) ∧
      decodeTableWord 8 0x3c = none := by decide

/-- The response word of section 2.10. -/
theorem test_response_word :
    Result.word { pri := 0x58d68708#32, sec := 0x582647ac#32 } = 0x582647ac_58d68708#64 := by decide

/-! ### The datapath -/

/-- Section 2.1. -/
theorem test_rotl :
    rotl 0x80000001#32 1 = 0x00000003#32 ∧ rotl 1#32 31 = 0x80000000#32 ∧ rotl 0xdeadbeef#32 19 = 0xf77ef56d#32 ∧
      rotl 0xdeadbeef#32 11 = 0x6df77ef5#32 ∧ rotl 0xdeadbeef#32 25 = 0xdfbd5b7d#32 ∧
      rotl 0xdeadbeef#32 0 = 0xdeadbeef#32 := by decide

/-- Section 2.2: no sign extension, little-endian. -/
theorem test_bytes :
    byteAt 0x80#8 0 = 0x80#32 ∧ byteAt 0xff#8 24 = 0xff000000#32 ∧ byteAt 0x61#8 8 = 0x6100#32 ∧
      wordLe 1#8 2#8 3#8 4#8 = 0x04030201#32 ∧ partLe [] = 0#32 ∧ partLe [0x09#8, 0x0a#8, 0x0b#8] = 0x000b0a09#32 := by
  decide

/-- Section 2.4, input (12345678, 9abcdef0, 0fedcba9), line by line. -/
theorem test_mixround_lines :
    mixLineA 4 ⟨0x12345678#32, 0x9abcdef0#32, 0x0fedcba9#32⟩ = ⟨0xfc9a305f#32, 0x9abcdef0#32, 0xaaaaaa99#32⟩ ∧
      mixLineB 6 ⟨0xfc9a305f#32, 0x9abcdef0#32, 0xaaaaaa99#32⟩ = ⟨0xa744daf8#32, 0xb8aeb96e#32, 0xaaaaaa99#32⟩ ∧
      mixLineC 8 ⟨0xa744daf8#32, 0xb8aeb96e#32, 0xaaaaaa99#32⟩ = ⟨0xa744daf8#32, 0x5ff39466#32, 0x5f429f93#32⟩ ∧
      mixLineA 16 ⟨0xa744daf8#32, 0x5ff39466#32, 0x5f429f93#32⟩ = ⟨0xd7916427#32, 0x5ff39466#32, 0xbf3633f9#32⟩ ∧
      mixLineB 19 ⟨0xd7916427#32, 0x5ff39466#32, 0xbf3633f9#32⟩ = ⟨0x96c79820#32, 0xa95c8cb4#32, 0xbf3633f9#32⟩ ∧
      mixLineC 4 ⟨0x96c79820#32, 0xa95c8cb4#32, 0xbf3633f9#32⟩ = ⟨0x96c79820#32, 0x402424d4#32, 0x80116c0f#32⟩ := by
  decide

/-- Section 2.4. -/
theorem test_mixround :
    mixround (acc1 0xdeadbeef#32) = ⟨0x108a17ff#32, 0xc0bfb8ee#32, 0x8c37cf7c#32⟩ ∧
      mixround ⟨0#32, 0#32, 1#32⟩ = ⟨0xeae4d1c9#32, 0x2dcd1961#32, 0x9397e6b6#32⟩ := by decide

/-- Section 2.5, input (12345678, 9abcdef0, 0fedcba9), line by line. -/
theorem test_finalround_lines :
    finLineC 14 ⟨0x12345678#32, 0x9abcdef0#32, 0x0fedcba9#32⟩ = ⟨0x12345678#32, 0x9abcdef0#32, 0x5d94eeaa#32⟩ ∧
      finLineA 11 ⟨0x12345678#32, 0x9abcdef0#32, 0x5d94eeaa#32⟩ = ⟨0xa82b65e6#32, 0x9abcdef0#32, 0x5d94eeaa#32⟩ ∧
      finLineB 25 ⟨0xa82b65e6#32, 0x9abcdef0#32, 0x5d94eeaa#32⟩ = ⟨0xa82b65e6#32, 0x6547644b#32, 0x5d94eeaa#32⟩ ∧
      finLineC 16 ⟨0xa82b65e6#32, 0x6547644b#32, 0x5d94eeaa#32⟩ = ⟨0xa82b65e6#32, 0x6547644b#32, 0xd488259a#32⟩ ∧
      finLineA 4 ⟨0xa82b65e6#32, 0x6547644b#32, 0xd488259a#32⟩ = ⟨0x3420e6cf#32, 0x6547644b#32, 0xd488259a#32⟩ ∧
      finLineB 14 ⟨0x3420e6cf#32, 0x6547644b#32, 0xd488259a#32⟩ = ⟨0x3420e6cf#32, 0x17b3b57c#32, 0xd488259a#32⟩ ∧
      finLineC 24 ⟨0x3420e6cf#32, 0x17b3b57c#32, 0xd488259a#32⟩ = ⟨0x3420e6cf#32, 0x17b3b57c#32, 0x4723dd31#32⟩ := by
  decide

/-- Section 2.5. -/
theorem test_finalround :
    finalround (acc1 0xdeadbeef#32) = ⟨0x1523f639#32, 0x6d004bb2#32, 0x31b8a510#32⟩ ∧
      finalround ⟨0#32, 1#32, 0#32⟩ = ⟨0x3a989830#32, 0xa15719ed#32, 0x02961431#32⟩ := by decide

/-! ### One step of each instruction -/

/-- HASHPAIR and INIT, section 2.3 (program P5): the command leaves the port, the trace shows 10. -/
theorem test_hashpair :
    nextState (exec (.hashpair 0xffffffff#32 1#32 25) (offering [p5Word, 0])) =
      some { State.reset with
        phase := .blocks
        call := some { acc := ⟨0xdeadbf07#32, 0xdeadbf07#32, 0xdeadbf08#32⟩, off := 0, rem := 25, nf := true }
        cmds := [0]
        trc := some 0x10#8 } := by decide

/-- A command presented while a call runs waits (section 2.11, scenario 5). -/
theorem test_hashpair_waits :
    nextState (exec (.hashpair 0#32 0#32 0) (during .fin (acc1 7#32) 1 0 true [])) =
      some (during .fin (acc1 7#32) 1 0 true []) := by decide

/-- HASH len, seed is HASHPAIR len, seed, 0 (R79): a of the last row of section 2.3, and c = a because seed2 = 0. -/
theorem test_hash :
    callOf (exec (.hash 0x12345678#32 5) (offering [])) =
      some { acc := acc1 0xf0e2156c#32, off := 0, rem := 5, nf := true } := by decide

/-- INIT, section 2.3: seeds that wrap, and a length that alone zeroes the accumulators. -/
theorem test_init :
    callOf (exec .init (offering [0x00000005_9abcdef0_12345678])) =
      some { acc := ⟨0xf0e2156c#32, 0xf0e2156c#32, 0x8b9ef45c#32⟩, off := 0, rem := 5, nf := true } := by decide
theorem test_init_length_only :
    callOf (exec .init (offering [0x21524111_00000000_00000000])) =
      some { acc := acc1 0#32, off := 0, rem := 0x21524111, nf := true } := by decide

/-- INIT with LEN_W = 40 and L = 2^32 + 1 (section 2.3, last paragraph). -/
theorem test_init_wide_length :
    callOf (exec .init { offering [0x100000001_00000000_00000000] with lenW := 40 }) =
      some { acc := acc1 0xdeadbef0#32, off := 0, rem := 2 ^ 32 + 1, nf := true } := by decide

/-- BLOCK, section 2.7, first row (program P3). -/
theorem test_block :
    nextState (exec .block (during .blocks (acc1 0xdeadbefb#32) 0 12 false (counting 12))) =
      some { during .blocks ⟨0xf024d085#32, 0x2895c62a#32, 0xe19bebf6#32⟩ 12 0 false (counting 12) with
        trc := some 0x20#8, reads := [0, 1, 2, 3, 4, 5, 6, 7, 8, 9, 10, 11] } := by decide

/-- BLOCK at offset 12, all bytes ff: sum deadbefa three times (section 2.7, row 3). -/
theorem test_block_high_bytes :
    callOf (exec .block (during .blocks (acc1 0xdeadbefb#32) 12 13 true (filled 12 13 0xff#8))) =
      some { acc := ⟨0x7850ad8c#32, 0x49b6d15d#32, 0x7872e1e2#32⟩, off := 24, rem := 1, nf := true } := by decide

/-- TAIL 11, section 2.6 (b): each accumulator wraps by itself. -/
theorem test_tail_11 :
    nextState (exec (.tail 11) (during .blocks (acc1 0xffffff01#32) 0 11 true (filled 0 11 0xff#8))) =
      some { during .fin ⟨0xffffff00#32, 0xffffff00#32, 0x00ffff00#32⟩ 11 0 true (filled 0 11 0xff#8) with
        trc := some 0x3b#8, reads := [0, 1, 2, 3, 4, 5, 6, 7, 8, 9, 10] } := by decide

/-- TAIL 0 (program P3): no byte, no addition, FINAL skipped. -/
theorem test_tail_0 :
    nextState (exec (.tail 0) (during .blocks ⟨1#32, 2#32, 3#32⟩ 12 0 false [])) =
      some { during .outp ⟨1#32, 2#32, 3#32⟩ 12 0 false [] with trc := some 0x30#8 } := by decide

/-- FINAL, section 2.5, the state of program P2. -/
theorem test_final :
    nextState (exec .final (during .fin ⟨0xdeadbf51#32, 0xdeadbef0#32, 0xdeadbef0#32⟩ 1 0 true [])) =
      some { during .outp ⟨0x9d14722c#32, 0x582647ac#32, 0x58d68708#32⟩ 1 0 true [] with trc := some 0x40#8 } := by
  decide

/-- OUT (program P2): primary is c, secondary is b, the accumulators are gone. -/
theorem test_out :
    nextState (exec .out (during .outp ⟨0x9d14722c#32, 0x582647ac#32, 0x58d68708#32⟩ 1 0 true [])) =
      some { answering 0x58d68708#32 0x582647ac#32 false with trc := some 0x50#8 } := by decide

/-! ### Steps that are no instruction -/

/-- The response handshake; a second command is not accepted in that step (section 2.11, scenario 6). -/
theorem test_rspack :
    nextState (step { answering 1#32 2#32 true with cmds := [p5Word] }) =
      some { offering [p5Word] with rspReady := true } := by decide

/-- Section 2.11, scenario 3: held in TAIL 1 with msg_addr 12. -/
theorem test_held :
    let s := during .blocks (acc1 5#32) 12 1 true (counting 12)
    nextState (step s) = some s ∧ s.msgPort = some 12 ∧ s.busy = true ∧ s.rspPort = none := by decide

/-- Section 2.11, scenario 9: reset wins over a command handshake. -/
theorem test_reset_wins :
    nextState (step { offering [p5Word] with rst := true }) = some { offering [p5Word] with rst := true } := by decide

/-- Section 2.11, scenario 10: rsp_ready while rsp_valid is 0. -/
theorem test_stray_ready :
    nextState (step { State.reset with rspReady := true }) = some { State.reset with rspReady := true } := by decide

/-! ### Duty 2 (R197) -/

/-- R197 with L = 2: below L a byte that the port answers holds still while a call runs; a late byte, a byte at L or
above (R58) and every byte while no call runs are the host's. -/
theorem test_keepsMessageStill :
    (let s := during .blocks (acc1 0#32) 0 2 true (counting 1);
      ¬(HostMove.place 0 9#8).keepsMessageStill s ∧ ¬(HostMove.withdraw 0).keepsMessageStill s ∧
        (HostMove.place 1 9#8).keepsMessageStill s) ∧
      (let s := during .outp (acc1 0#32) 2 0 true (counting 3);
        ¬(HostMove.place 1 9#8).keepsMessageStill s ∧ (HostMove.place 2 9#8).keepsMessageStill s) ∧
      (HostMove.place 0 9#8).keepsMessageStill { answering 0#32 0#32 false with mem := counting 1 } ∧
      (HostMove.withdraw 0).keepsMessageStill { offering [] with mem := counting 1 } := by decide

/-! ### Whole calls, as the function of R162 -/

/-- Sections 1.1 and 2.9, programs P2 and P3, and a message behind two blocks (section 2.8, L = 25). -/
theorem test_hashPair :
    hashPair [] 0#32 0#32 = { pri := 0xdeadbeef#32, sec := 0xdeadbeef#32 } ∧
      hashPair [0x61#8] 0#32 0#32 = { pri := 0x58d68708#32, sec := 0x582647ac#32 } ∧
      hashPair (countingMsg 12) 0#32 0#32 = { pri := 0xe19bebf6#32, sec := 0x2895c62a#32 } ∧
      hashPair (countingMsg 25) 0#32 0#32 = { pri := 0x7d6fb9a4#32, sec := 0x7b3e885a#32 } := by decide +kernel

/-- Section 2.10, the sequence for L = 25. -/
theorem test_call_trace :
    callTrace 25 = [0x10#8, 0x20#8, 0x20#8, 0x31#8, 0x40#8, 0x50#8] ∧ uopCount 1200 = 103 ∧ uopCount 1207 = 104 := by
  decide

/-! ### The listing of program P5 (R78) -/

theorem test_listing :
    (AsmLine.hashpair 25 (some 0xffffffff#32) (some 1#32)).print = "HASHPAIR 25, 4294967295, 1" ∧
      (AsmLine.msgBytes [0x61#8, 0x0a#8]).print = ".msg 61 0a" ∧
      (AsmLine.msgString ['a', 'b']).bytes = some [0x61#8, 0x62#8] ∧ (AsmLine.msgString ['é']).bytes = none := by
  decide +kernel

/-! ### A word of the opcode table is the next instruction issued -/

/-- step after `withFetchWord` runs exactly the instruction of the word, and it completes. -/
def runsFirst (nbits w : Nat) : Bool :=
  let s := State.reset.withFetchWord nbits w
  match decodeTableWord nbits w with
  | some i => (nextState (step s)).isSome && decide (nextState (step s) = nextState (exec i s))
  | none => false

theorem test_fetch_cmd : runsFirst 96 p5Word = true ∧ runsFirst 96 0 = true ∧ runsFirst 96 (2 ^ 96 - 1) = true := by
  decide +kernel
theorem test_fetch_uop :
    ([0x10, 0x20, 0x30, 0x31, 0x32, 0x33, 0x34, 0x35, 0x36, 0x37, 0x38, 0x39, 0x3a, 0x3b, 0x40, 0x50].all
      fun w => runsFirst 8 w) = true := by decide +kernel

/-- The trace port shows the code of the word that was placed (R73, R181). -/
theorem test_fetch_trace :
    ([0x10, 0x20, 0x30, 0x3b, 0x40, 0x50].all fun w =>
      decide ((nextState (step (State.reset.withFetchWord 8 w))).bind State.trc = some (BitVec.ofNat 8 w))) = true := by
  decide +kernel

/-! ### Witnesses: data that meets the hypotheses of each obligation together -/

/-- The reset state with a message 01 02 03 … placed and a command presented. -/
def loaded (n : Nat) (c : Command) : State :=
  State.reset.load (countingMsg n) c

theorem witness_DecodeOfEncodeIsTheInstruction :
    (Instr.hashpair 1#32 0#32 (2 ^ 32 - 1)).wellFormed 32 = true ∧ (Instr.tail 11).wellFormed 1 = true := by decide

theorem witness_EncodeOfDecodeIsTheWord :
    decode 32 (.cmd (2 ^ 96 - 1)) = .ok (.hashpair 0xffffffff#32 0xffffffff#32 0xffffffff) ∧
      decode 1 (.uop 0x3b#8) = .ok (.tail 11) := ⟨rfl, rfl⟩

theorem witness_UopCodesSelectTheirRows :
    (0 ≤ 11 ∧ decode 32 (.uop 0x30#8) = .ok (.tail 0)) ∧ 11 ≤ 11 ∧ decode 32 (.uop 0x3b#8) = .ok (.tail 11) :=
  ⟨⟨by decide, rfl⟩, by decide, rfl⟩

theorem witness_OtherCodesAreNeverGenerated :
    (during .blocks (acc1 0#32) 0 11 true []).nextAction = .ok (.run (.uop 0x3b#8)) ∧
      ∃ t, step (offering [0]) = .next t ∧ t.trc = some 0x10#8 := ⟨rfl, _, rfl, rfl⟩

theorem witness_WordsAreAssembledLittleEndian : ([] : List Byte).length ≤ 4 ∧ [1#8, 2#8, 3#8, 4#8].length ≤ 4 := by
  decide

theorem witness_RotlMovesBitsAround : 0 < 32 ∧ 31 < 32 ∧ rotl 1#32 31 = 0x80000000#32 := by decide

theorem witness_TailAddsAZeroPaddedBlock :
    ([] : List Byte).length + 11 ≤ 11 ∧ (countingMsg 11).length ≤ 11 ∧ (countingMsg 11).length + 0 ≤ 11 := by decide

/-- The longest length and the shortest. -/
theorem witness_InitCreatesTheAccumulators :
    ((offering [0xffffffff_00000000_00000000]).phase = .idle ∧
        (offering [0xffffffff_00000000_00000000]).cmds = encodeCmd ⟨0#32, 0#32, 0xffffffff⟩ :: [] ∧
        0xffffffff < 2 ^ (offering []).lenW) ∧
      (offering [0, p5Word]).phase = .idle ∧
      (offering [0, p5Word]).cmds = encodeCmd ⟨0#32, 0#32, 0⟩ :: [p5Word] ∧ 0 < 2 ^ (offering []).lenW := by
  decide

/-- The command at the port is this one, is another, is absent. -/
theorem witness_HostCommandsAreAcceptedWhenIdle :
    ((offering [p5Word]).phase = .idle ∧ 25 < 2 ^ (offering [p5Word]).lenW ∧
        (offering [p5Word]).cmds.head? = some (encodeCmd p5)) ∧
      (offering [0]).cmds.head? ≠ some (encodeCmd p5) ∧ (offering []).cmds.head? = none ∧
      0xffffffff < 2 ^ (offering []).lenW := by decide

theorem witness_AcceptanceIsTheInitStep :
    ((offering [p5Word, 0]).phase = .idle ∧ (offering [p5Word, 0]).cmds = encodeCmd p5 :: [0] ∧
        p5.len < 2 ^ (offering []).lenW) ∧
      (offering [0xffffffff_00000000_00000007]).cmds = encodeCmd ⟨7#32, 0#32, 0xffffffff⟩ :: [] := by decide

theorem witness_CommandsWaitWhileBusy :
    (during .blocks (acc1 0#32) 0 0 false []).phase ≠ .idle ∧ (during .fin (acc1 0#32) 1 0 true []).phase ≠ .idle ∧
      (during .outp (acc1 0#32) 0 0 false []).phase ≠ .idle ∧ (answering 0#32 0#32 true).phase ≠ .idle := by decide

/-- rem = 12, and a block that ends with the last offset of the message space. -/
theorem witness_BlockConsumesTwelveBytes :
    (let s := during .blocks (acc1 0#32) 0 12 false (counting 12);
      s.phase = .blocks ∧ s.call = some ⟨acc1 0#32, 0, 12, false⟩ ∧ 12 ≤ 12 ∧ 0 + 12 ≤ 2 ^ s.lenW ∧
        ∀ i, i < 12 → s.mem.read (0 + i) = some (BitVec.ofNat 8 (i + 1))) ∧
      let s := { during .blocks (acc1 0#32) 20 12 false (filled 20 12 0xff#8) with lenW := 5 }
      s.phase = .blocks ∧ s.call = some ⟨acc1 0#32, 20, 12, false⟩ ∧ 12 ≤ 12 ∧ 20 + 12 ≤ 2 ^ s.lenW ∧
        ∀ i, i < 12 → s.mem.read (20 + i) = some 0xff#8 := by decide

/-- r = 0 with NF = 0, and r = 11 with NF = 1. -/
theorem witness_TailFoldsTheLastBytes :
    (let s := during .blocks (acc1 0#32) 12 0 false [];
      s.phase = .blocks ∧ s.call = some ⟨acc1 0#32, 12, 0, false⟩ ∧ 0 < 12 ∧ 12 + 0 ≤ 2 ^ s.lenW ∧
        ∀ i, i < 0 → s.mem.read (12 + i) = some 0#8) ∧
      let s := during .blocks (acc1 0#32) 0 11 true (counting 11)
      s.phase = .blocks ∧ s.call = some ⟨acc1 0#32, 0, 11, true⟩ ∧ 11 < 12 ∧ 0 + 11 ≤ 2 ^ s.lenW ∧
        ∀ i, i < 11 → s.mem.read (0 + i) = some (BitVec.ofNat 8 (i + 1)) := by decide

theorem witness_FinalAppliesTheAvalanche :
    (let s := during .fin (acc1 7#32) 1 0 true [];
      s.phase = .fin ∧ s.call = some ⟨acc1 7#32, 1, 0, true⟩ ∧ s.inv = true) ∧
      ∃ t, step (during .blocks (acc1 0#32) 0 1 true (counting 1)) = .next t ∧ t.phase = .fin :=
  ⟨by decide, _, rfl, rfl⟩

/-- The effect, and both ways into OUTP. -/
theorem witness_OutAssemblesThePair :
    (let s := during .outp (acc1 7#32) 1 0 true [];
      s.phase = .outp ∧ s.call = some ⟨acc1 7#32, 1, 0, true⟩ ∧ s.inv = true) ∧
      (let s := during .fin (acc1 7#32) 1 0 true [];
        s.inv = true ∧ ∃ t, step s = .next t ∧ t.phase = .outp) ∧
      let s := during .blocks (acc1 7#32) 12 0 false []
      s.inv = true ∧ ∃ t, step s = .next t ∧ t.phase = .outp :=
  ⟨by decide, ⟨by decide, _, rfl, rfl⟩, by decide, _, rfl, rfl⟩

theorem witness_ResponseIsHeldUntilTaken :
    ([true, false].all fun v =>
      let s := { answering 1#32 2#32 v with cmds := [p5Word] }
      decide (s.rst = false ∧ s.phase = .resp ∧ s.result = some ⟨1#32, 2#32⟩ ∧ s.rspReady = v)) = true := by decide

/-- BLOCK with its last byte unanswered, TAIL 11 with its last byte unanswered, TAIL 1 with its only one: the reads
before it are answered, and the port requests it. -/
theorem witness_UnansweredReadHoldsTheEngine :
    (let s := during .blocks (acc1 0#32) 0 12 false (counting 11);
      s.phase = .blocks ∧ s.call = some ⟨acc1 0#32, 0, 12, false⟩ ∧ s.mem.read (0 + 11) = none ∧ 12 ≤ 12 ∧ 11 < 12 ∧
        0 + 12 ≤ 2 ^ s.lenW ∧ (∀ j, j < 11 → (s.mem.read (0 + j)).isSome = true) ∧ s.rst = false ∧
        s.msgPort = some 11) ∧
      (let s := during .blocks (acc1 0#32) 0 11 true (counting 10);
        s.phase = .blocks ∧ s.call = some ⟨acc1 0#32, 0, 11, true⟩ ∧ s.mem.read (0 + 10) = none ∧ 11 < 12 ∧ 10 < 11 ∧
          0 + 11 ≤ 2 ^ s.lenW ∧ (∀ j, j < 10 → (s.mem.read (0 + j)).isSome = true) ∧ s.rst = false ∧
          s.msgPort = some 10) ∧
      let s := during .blocks (acc1 0#32) 12 1 true (counting 12)
      s.phase = .blocks ∧ s.call = some ⟨acc1 0#32, 12, 1, true⟩ ∧ s.mem.read (12 + 0) = none ∧ 1 < 12 ∧ 0 < 1 ∧
        12 + 1 ≤ 2 ^ s.lenW ∧ s.rst = false ∧ s.msgPort = some 12 := by decide

/-- One state for each clause: INIT without a command and outside IDLE; BLOCK outside BLOCKS and with rem = 11; TAIL
outside BLOCKS, with rem = 12 and with another r; FINAL and OUT in IDLE. -/
theorem witness_MicroOperationsStopWhereNotIssued :
    ((offering []).cmds = [] ∧ (answering 0#32 0#32 false).phase ≠ .idle ∧ (offering []).phase ≠ .blocks) ∧
      (let s := during .blocks (acc1 0#32) 0 11 true [];
        s.phase = .blocks ∧ s.call = some ⟨acc1 0#32, 0, 11, true⟩ ∧ 11 < 12 ∧ 10 ≠ 11) ∧
      (let s := during .blocks (acc1 0#32) 0 12 false [];
        s.phase = .blocks ∧ s.call = some ⟨acc1 0#32, 0, 12, false⟩ ∧ 12 ≤ 12) ∧
      (offering []).phase ≠ .fin ∧ (offering []).phase ≠ .outp := by decide

theorem witness_DeadRegistersFaultOnRead :
    ([Phase.blocks, .fin, .outp].all fun p =>
      let s := { State.reset with phase := p }
      decide (s.call = none ∧ s.phase = p ∧ s.rst = false)) = true ∧
      let s := { State.reset with phase := .resp, rspReady := true }
      s.result = none ∧ s.phase = .resp ∧ s.rst = false ∧ s.rspReady = true := by decide

/-- The first offset behind a space of four bytes, read by TAIL 5 and by BLOCK; and the smallest word too wide. -/
theorem witness_WhatDoesNotExistStopsByName :
    ([5, 12].all fun n =>
      let s := { during .blocks (acc1 0#32) 0 n true (counting 4) with lenW := 2 }
      decide (s.phase = .blocks ∧ s.call = some ⟨acc1 0#32, 0, n, true⟩ ∧ 2 ^ s.lenW ≤ 0 + 4 ∧
        (∀ j, j < 4 → 0 + j < 2 ^ s.lenW ∧ (s.mem.read (0 + j)).isSome = true) ∧ (n < 12 ∧ 4 < n ∨ 12 ≤ n ∧ 4 < 12))) =
          true ∧
      let s := offering [2 ^ 96]
      s.phase = .idle ∧ s.cmds = 2 ^ 96 :: [] ∧ 2 ^ (64 + s.lenW) ≤ 2 ^ 96 ∧ s.rst = false := by decide

theorem witness_StepRunsTheDecodedInstruction :
    (let s := during .blocks (acc1 0#32) 0 12 false [];
      s.rst = false ∧ decode s.lenW (.uop 0x20#8) = .ok .block ∧ s.nextAction = .ok (.run (.uop 0x20#8))) ∧
      let s := offering [p5Word]
      s.rst = false ∧ decode s.lenW (.cmd p5Word) = .ok (.hashpair 0xffffffff#32 1#32 25) ∧ s.phase = .idle ∧
        ∃ v rest, (.cmd p5Word : Encoded) = .cmd v ∧ s.cmds = v :: rest :=
  ⟨⟨rfl, rfl, rfl⟩, rfl, rfl, rfl, p5Word, [], rfl, rfl⟩

/-- The clauses at their boundaries: an empty port and a command; rem = 12 and rem = 11; FIN; OUTP; RESP with and
without rsp_ready; and a next state of each instruction. -/
theorem witness_SequencerChoosesTheNextStep :
    ((offering []).phase = .idle ∧ (offering []).cmds = [] ∧ (offering []).rst = false) ∧
      ((offering [p5Word]).phase = .idle ∧ (offering [p5Word]).cmds = encodeCmd p5 :: [] ∧
        p5.len < 2 ^ (offering [p5Word]).lenW) ∧
      ((during .blocks (acc1 0#32) 0 12 false []).call = some ⟨acc1 0#32, 0, 12, false⟩ ∧ 12 ≤ 12) ∧
      ((during .blocks (acc1 0#32) 0 11 true []).call = some ⟨acc1 0#32, 0, 11, true⟩ ∧ 11 < 12) ∧
      ((answering 0#32 0#32 true).rspReady = true ∧ (answering 0#32 0#32 false).rspReady = false) ∧
      ([(Instr.init, offering [p5Word]), (.block, during .blocks (acc1 0#32) 0 12 false (counting 12)),
          (.tail 11, during .blocks (acc1 0#32) 0 11 true (counting 11)), (.tail 0, during .blocks (acc1 0#32) 0 0 false []),
          (.final, during .fin (acc1 0#32) 1 0 true []), (.out, during .outp (acc1 0#32) 0 0 false [])].all
        fun p => (nextState (exec p.1 p.2)).isSome) = true ∧
      (nextState (answering 0#32 0#32 true).respond).isSome = true := by decide

theorem witness_ResetWinsOverEverything :
    ({ during .blocks (acc1 0#32) 0 12 false (counting 12) with rst := true, cmds := [p5Word] } : State).rst = true ∧
      ({ answering 0#32 0#32 true with rst := true } : State).rst = true := by decide

theorem witness_StatusOutputsFollowThePhase :
    (offering []).phase ≠ .blocks ∧ (offering []).phase ≠ .resp ∧ (answering 0#32 0#32 true).phase = .resp := by decide

/-- States of every phase meet the invariant and have a next state. -/
theorem witness_StepKeepsTheInvariant :
    ([offering [p5Word], during .blocks (acc1 0#32) 0 12 false (counting 12),
        during .blocks (acc1 0#32) 12 11 true (counting 23), during .fin (acc1 0#32) 1 0 true [],
        during .outp (acc1 0#32) 12 0 false [], answering 0#32 0#32 true, answering 0#32 0#32 false].all
      fun s => s.inv && (nextState (step s)).isSome) = true := by decide +kernel

theorem witness_ResetMeetsTheInvariant : 1 ≤ 1 ∧ 1 ≤ Config.lenWDefault := by decide

theorem witness_HostMovesKeepTheInvariant : (offering [p5Word]).inv = true := by decide

theorem witness_EveryStepReturnsANextState : (during .blocks (acc1 0#32) 12 11 true []).inv = true := by decide

/-- The smallest LEN_W, and a state behind a host move and an engine step. -/
theorem witness_ReachableStatesNeverStop :
    Reachable { State.reset with lenW := 1 } ∧ ∃ t, step ((HostMove.present p5Word).apply State.reset) = .next t ∧
      Reachable t ∧ t.phase = .blocks :=
  ⟨.reset 1 (by decide), _, rfl, .engine ((HostMove.present p5Word).apply State.reset) _
    (.host _ State.reset (.reset 32 (by decide)) rfl) rfl, rfl⟩

/-- What every statement about a whole call assumes, for this length. -/
theorem presents_loaded (n : Nat) (c : Command) (h : c.len < 2 ^ 32) : (loaded n c).presents c :=
  ⟨rfl, rfl, h, rfl⟩

theorem answers_loaded (n : Nat) (c : Command)
    (h : (∀ i, i < (countingMsg n).length → (loaded n c).mem.read i = (countingMsg n)[i]?)) :
    (loaded n c).answers (countingMsg n) := h

theorem witness_OffsetAndRemainderAddUpToTheLength :
    (loaded 25 p5).presents p5 ∧ p5.len = (countingMsg 25).length ∧ (loaded 25 p5).answers (countingMsg 25) ∧
      0 ≤ p5.len / 12 ∧ 2 ≤ p5.len / 12 :=
  ⟨presents_loaded _ _ (by decide), by decide, answers_loaded _ _ (by decide +kernel), by decide, by decide⟩

/-- rem = 0 and rem = 11. -/
theorem witness_NeedFinalIsNonzeroRemainder :
    (let s := during .blocks (acc1 0#32) 12 0 false [];
      s.inv = true ∧ s.phase = .blocks ∧ s.call = some ⟨acc1 0#32, 12, 0, false⟩ ∧ 0 < 12) ∧
      let s := during .blocks (acc1 0#32) 12 11 true []
      s.inv = true ∧ s.phase = .blocks ∧ s.call = some ⟨acc1 0#32, 12, 11, true⟩ ∧ 11 < 12 := by decide

theorem witness_EngineNeverWritesMemory :
    (∃ t, exec .block (during .blocks (acc1 0#32) 0 12 false (counting 12)) = .next t) ∧
      ∃ t, step (offering [p5Word]) = .next t := ⟨⟨_, rfl⟩, _, rfl⟩

theorem witness_OnlyBlockAndTailReadTheMessage :
    (∃ t, exec .block (during .blocks (acc1 0#32) 0 12 false (counting 12)) = .next t ∧ 11 ∈ t.reads) ∧
      ∃ t, exec .out (during .outp (acc1 0#32) 0 0 false []) = .next t ∧ t.reads = [] :=
  ⟨⟨_, rfl, by decide⟩, _, rfl, rfl⟩

theorem witness_OnlyInitWritesNeedFinal :
    let s := during .fin (acc1 0#32) 1 0 true []
    ∃ t u, exec .final s = .next t ∧ s.call = some ⟨acc1 0#32, 1, 0, true⟩ ∧ t.call = some u ∧ s.phase ≠ .idle :=
  ⟨_, _, rfl, rfl, rfl, by decide⟩

/-- A pulse, that of TAIL 0 too; then no pulse: a wait, reset, a response, a held step. -/
theorem witness_TracePulsesOncePerMicroOperation :
    (∃ t, step (during .fin (acc1 0#32) 1 0 true []) = .next t ∧ t.trc = some 0x40#8) ∧
      (∃ t, step (during .blocks (acc1 0#32) 0 0 false []) = .next t ∧ t.trc = some 0x30#8) ∧
      (∃ t, step (offering []) = .next t ∧ t.trc = none ∧ (offering []).phase = .idle ∧ (offering []).cmds = []) ∧
      (∃ t, step { offering [p5Word] with rst := true } = .next t ∧ t.trc = none) ∧
      (∃ t, step (answering 0#32 0#32 true) = .next t ∧ (answering 0#32 0#32 true).phase = .resp) ∧
      let s := during .blocks (acc1 0#32) 0 12 false (counting 11)
      ∃ t, step s = .next t ∧ s.msgPort ≠ none :=
  ⟨⟨_, rfl, rfl⟩, ⟨_, rfl, rfl⟩, ⟨_, rfl, rfl, rfl, rfl⟩, ⟨_, rfl, rfl⟩, ⟨_, rfl, rfl⟩, _, rfl, by decide⟩

/-- A handshake, a command that waits, and reset. -/
theorem witness_CommandsLeaveOnlyByTheHandshake :
    ((offering [p5Word, 0]).inv = true ∧ ∃ t, step (offering [p5Word, 0]) = .next t ∧ t.cmds = [0]) ∧
      (let s := { answering 0#32 0#32 true with cmds := [p5Word] };
        s.inv = true ∧ s.phase ≠ .idle ∧ ∃ t, step s = .next t) ∧
      let s := { offering [p5Word] with rst := true }
      s.inv = true ∧ s.rst = true ∧ ∃ t, step s = .next t :=
  ⟨⟨by decide, _, rfl, rfl⟩, ⟨by decide, by decide, _, rfl⟩, by decide, rfl, _, rfl⟩

theorem witness_StrayReadyIsIgnored :
    (offering [p5Word]).phase ≠ .resp ∧ ∃ t, step (offering [p5Word]) = .next t := ⟨by decide, _, rfl⟩

theorem witness_WaitingCommandsDoNotDisturbACall :
    let s := during .fin (acc1 0#32) 1 0 true []
    s.phase ≠ .idle ∧ ∃ t, step s = .next t := ⟨by decide, _, rfl⟩

/-- Two states with other accumulators and other message bytes. -/
theorem witness_MessageBytesNeverSteerTheSequencer :
    let s := during .blocks (acc1 0#32) 0 12 false (counting 12)
    let s' := during .blocks (acc1 9#32) 0 12 false (filled 0 12 0xff#8)
    s.control = s'.control ∧ ∃ t t', step s = .next t ∧ step s' = .next t' ∧ t.trc.isSome = t'.trc.isSome :=
  ⟨by decide, _, _, rfl, rfl, rfl⟩

/-- The empty message, one of twelve bytes (no FINAL) and one of twenty-five. -/
theorem witness_CallComputesHashPair :
    ((loaded 0 ⟨0#32, 0#32, 0⟩).presents ⟨0#32, 0#32, (countingMsg 0).length⟩ ∧
        (loaded 0 ⟨0#32, 0#32, 0⟩).answers (countingMsg 0)) ∧
      ((loaded 12 ⟨0#32, 0#32, 12⟩).presents ⟨0#32, 0#32, (countingMsg 12).length⟩ ∧
        (loaded 12 ⟨0#32, 0#32, 12⟩).answers (countingMsg 12)) ∧
      (loaded 25 p5).presents ⟨0xffffffff#32, 1#32, (countingMsg 25).length⟩ ∧
        (loaded 25 p5).answers (countingMsg 25) :=
  ⟨⟨presents_loaded _ _ (by decide), answers_loaded _ _ (by decide)⟩,
    ⟨presents_loaded _ _ (by decide), answers_loaded _ _ (by decide +kernel)⟩,
    presents_loaded _ _ (by decide), answers_loaded _ _ (by decide +kernel)⟩

theorem witness_CallTraceIsAFunctionOfTheLength :
    (loaded 25 p5).presents p5 ∧ p5.len = (countingMsg 25).length ∧ (loaded 25 p5).answers (countingMsg 25) :=
  ⟨presents_loaded _ _ (by decide), by decide, answers_loaded _ _ (by decide +kernel)⟩

theorem witness_CallReadsEveryByteOnceAscending :
    (loaded 13 ⟨0#32, 0#32, 13⟩).presents ⟨0#32, 0#32, 13⟩ ∧ 13 = (countingMsg 13).length ∧
      (loaded 13 ⟨0#32, 0#32, 13⟩).answers (countingMsg 13) :=
  ⟨presents_loaded _ _ (by decide), by decide, answers_loaded _ _ (by decide +kernel)⟩

/-! Histories: two calls over the message 01 with the same command. In the first the host places the byte only after
the engine was held, and takes the response; in the second the byte is there from the start, beside another byte, another
waiting command and another LEN_W, and the response is left standing. -/

/-- The history that these moves make from this state; an engine step that stops would repeat the state. -/
def follow (move : Nat → Option HostMove) (s : State) : Nat → State
  | 0 => s
  | n + 1 =>
    match move n with
    | some h => h.apply (follow move s n)
    | none => (nextState (step (follow move s n))).getD (follow move s n)

theorem nextState_eq_some {x : Host.Outcome State Fault Refusal} {t : State} :
    nextState x = some t ↔ x = .next t := by
  cases x <;> simp [nextState]

/-- Where every engine step answers next and every move keeps duty 2, what follows is a history. -/
theorem history_follow {move : Nat → Option HostMove} {s : State}
    (he : ∀ n, move n = none → nextState (step (follow move s n)) ≠ none)
    (hh : ∀ n h, move n = some h → h.keepsMessageStill (follow move s n) = true) : History (follow move s) move where
  engine n hn := by
    obtain ⟨t, ht⟩ := Option.ne_none_iff_exists'.mp (he n hn)
    rw [follow, hn, nextState_eq_some.mp ht]; rfl
  host n h hn := ⟨hh n h hn, by simp [follow, hn]⟩

/-- From a moment on in which the engine rests and the host does nothing, every moment is that one. -/
theorem follow_rest {move : Nat → Option HostMove} {s : State} {k : Nat} (hm : ∀ n, k ≤ n → move n = none)
    (hs : nextState (step (follow move s k)) = some (follow move s k)) (n : Nat) :
    n < k ∨ (k ≤ n ∧ move n = none ∧ follow move s n = follow move s k) := by
  induction n with
  | zero =>
    rcases Nat.eq_zero_or_pos k with rfl | h
    · exact .inr ⟨Nat.le_refl _, hm 0 (Nat.le_refl _), rfl⟩
    · exact .inl h
  | succ n ih =>
    rcases Nat.lt_or_ge (n + 1) k with h | h
    · exact .inl h
    · refine .inr ⟨h, hm _ h, ?_⟩
      rcases ih with ih | ⟨-, ih, e⟩
      · rw [show k = n + 1 by omega]
      · simp [follow, ih, e, hs]

/-- HASHPAIR 1, 7, 0. -/
def shortCall : Command := ⟨7#32, 0#32, 1⟩

/-- The host places the byte at moment 2. -/
def lateMoves (n : Nat) : Option HostMove :=
  if n = 2 then some (.place 0 1#8) else none

def lateRun : Nat → State :=
  follow lateMoves { offering [encodeCmd shortCall] with rspReady := true }

def promptRun : Nat → State :=
  follow (fun _ => none) { offering [encodeCmd shortCall, 0] with mem := [(0, 1#8), (1, 9#8)], lenW := 2 }

theorem lateRun_rest (n : Nat) : n < 7 ∨ (7 ≤ n ∧ lateMoves n = none ∧ lateRun n = lateRun 7) :=
  follow_rest (fun n h => by simp [lateMoves]; omega) (by decide) n

theorem promptRun_rest (n : Nat) : n < 5 ∨ (5 ≤ n ∧ none = (none : Option HostMove) ∧ promptRun n = promptRun 5) :=
  follow_rest (fun _ _ => rfl) (by decide) n

theorem lateRun_history : History lateRun lateMoves :=
  history_follow
    (fun n hn => by
      change nextState (step (lateRun n)) ≠ none
      rcases lateRun_rest n with h | ⟨-, -, e⟩
      · exact (by decide : ∀ n, n < 7 → lateMoves n = none → nextState (step (lateRun n)) ≠ none) n h hn
      · rw [e]; decide)
    (fun n h hn => by
      obtain rfl : n = 2 := by
        by_contra hne
        simp [lateMoves, hne] at hn
      cases hn
      decide)

theorem promptRun_history : History promptRun fun _ => none :=
  history_follow
    (fun n _ => by
      change nextState (step (promptRun n)) ≠ none
      rcases promptRun_rest n with h | ⟨-, -, e⟩
      · exact (by decide : ∀ n, n < 5 → nextState (step (promptRun n)) ≠ none) n h
      · rw [e]; decide)
    (fun _ _ h => by cases h)

/-- A memory that answers nothing or the byte 01 at offset 0 agrees with the message 01. -/
theorem agrees_short {s : State} (h : s.mem.read 0 = none ∨ s.mem.read 0 = some 1#8) : s.agrees [1#8] := by
  intro o x ho hx
  obtain rfl : o = 0 := by simpa using ho
  rcases h with h | h <;> simp_all

theorem lateRun_truthful : AnswersTruthfully lateRun [1#8] := fun n _ _ => by
  apply agrees_short
  rcases lateRun_rest n with h | ⟨-, -, e⟩
  · exact (by decide : ∀ n, n < 7 → (lateRun n).mem.read 0 = none ∨ (lateRun n).mem.read 0 = some 1#8) n h
  · rw [e]; decide

theorem promptRun_truthful : AnswersTruthfully promptRun [1#8] := fun n _ _ => by
  apply agrees_short
  rcases promptRun_rest n with h | ⟨-, -, e⟩
  · exact (by decide : ∀ n, n < 5 → (promptRun n).mem.read 0 = none ∨ (promptRun n).mem.read 0 = some 1#8) n h
  · rw [e]; decide

theorem lateRun_stillInCall : StillInCall lateRun 6 := fun k h0 h =>
  (by decide : ∀ k, k < 7 → 0 < k → (lateRun k).phase ≠ .idle) k (by omega) h0

theorem promptRun_stillInCall : StillInCall promptRun 4 := fun k h0 h =>
  (by decide : ∀ k, k < 5 → 0 < k → (promptRun k).phase ≠ .idle) k (by omega) h0

/-- Both clauses: two states that present the command with the byte answered, and the two histories. -/
theorem witness_ResponseIsIndependentOfHistory :
    (let s := { offering [encodeCmd shortCall] with mem := [(0, 1#8)] };
      shortCall.len = [1#8].length ∧ s.presents shortCall ∧ (promptRun 0).presents shortCall ∧ s.answers [1#8] ∧
        (promptRun 0).answers [1#8]) ∧
      History lateRun lateMoves ∧ History promptRun (fun _ => none) ∧ Accepts lateRun lateMoves shortCall ∧
      Accepts promptRun (fun _ => none) shortCall ∧ AnswersTruthfully lateRun [1#8] ∧
      AnswersTruthfully promptRun [1#8] ∧ StillInCall lateRun 6 ∧ StillInCall promptRun 4 ∧
      (lateRun 6).rspPort.isSome = true ∧ (promptRun 4).rspPort.isSome = true := by
  refine ⟨⟨rfl, ⟨rfl, rfl, by decide, rfl⟩, ⟨rfl, rfl, by decide, rfl⟩, ?_, ?_⟩, lateRun_history, promptRun_history,
    ⟨⟨rfl, rfl, by decide, rfl⟩, rfl⟩, ⟨⟨rfl, rfl, by decide, rfl⟩, rfl⟩, lateRun_truthful, promptRun_truthful,
    lateRun_stillInCall, promptRun_stillInCall, by decide, by decide⟩ <;> intro i hi <;>
    obtain rfl : i = 0 := by simpa using hi
  · rfl
  · rfl

/-- A call held before its byte with the legal, truthful move that places it; one whose message is readable, with a
move behind the message; and a response that is taken. -/
theorem witness_PromisedPairIsKept :
    (let s := lateRun 1
      ∃ p, s.onCourse [1#8] p ∧ s.rst = false ∧ (∃ t, step s = .next t) ∧
        (HostMove.place 0 1#8).keepsMessageStill s = true ∧ s.call.isSome = true ∧
        (HostMove.place 0 1#8).truthful [1#8] = true) ∧
      (let s := promptRun 1
        ∃ p, s.onCourse [1#8] p ∧ (∃ t, step s = .next t ∧ t.trc = some 0x31#8) ∧
          (HostMove.place 1 5#8).keepsMessageStill s = true ∧ s.call.isSome = true ∧ s.answers [1#8]) ∧
      let s := answering 1#32 2#32 true
      s.onCourse [] ⟨1#32, 2#32⟩ ∧ ∃ t, step s = .next t ∧ t.phase = .idle := by
  refine ⟨⟨_, ⟨by decide, rfl, fun _ => ⟨rfl, agrees_short (by decide)⟩⟩, rfl, ⟨_, rfl⟩, by decide, rfl, by decide⟩,
    ⟨_, ⟨by decide, rfl, fun _ => ⟨rfl, agrees_short (by decide)⟩⟩, ⟨_, rfl, rfl⟩, by decide, rfl, ?_⟩,
    ⟨by decide, rfl, fun h => by cases h⟩, _, rfl, rfl⟩
  intro i hi
  obtain rfl : i = 0 := by simpa using hi
  rfl

theorem witness_CallsUnderTheDutiesAreAnsweredAndTaken :
    History lateRun lateMoves ∧ EngineRuns lateMoves ∧ (∀ n, (lateRun n).rst = false) ∧ (lateRun 0).inv = true ∧
      Accepts lateRun lateMoves shortCall ∧ shortCall.len = [1#8].length ∧ AnswersTruthfully lateRun [1#8] ∧
      AnswersReads lateRun ∧ TakesResponses lateRun lateMoves := by
  refine ⟨lateRun_history, fun n => ⟨n + 7, by omega, by simp [lateMoves]⟩, fun n => ?_, by decide,
    ⟨⟨rfl, rfl, by decide, rfl⟩, rfl⟩, rfl, lateRun_truthful, fun n o h => ?_, fun n h => ?_⟩
  · rcases lateRun_rest n with hn | ⟨-, -, e⟩
    · exact (by decide : ∀ n, n < 7 → (lateRun n).rst = false) n hn
    · rw [e]; decide
  · rcases lateRun_rest n with hn | ⟨-, -, e⟩
    · obtain ⟨h3, rfl⟩ : n ≤ 3 ∧ o = 0 := by
        have hs : (lateRun n).msgPort ≠ none → n ≤ 3 ∧ (lateRun n).msgPort = some 0 :=
          (by decide : ∀ n, n < 7 → (lateRun n).msgPort ≠ none → n ≤ 3 ∧ (lateRun n).msgPort = some 0) n hn
        simpa [h] using hs
      exact ⟨3, h3, by decide⟩
    · rw [e] at h
      exact absurd h (by simp [show (lateRun 7).msgPort = none by decide])
  · rcases lateRun_rest n with hn | ⟨-, -, e⟩
    · obtain rfl := (by decide : ∀ n, n < 7 → (lateRun n).rspValid = true → n = 6) n hn h
      exact ⟨6, Nat.le_refl _, rfl, by decide⟩
    · rw [e] at h
      exact absurd h (by decide)

/-- A call with a block and a tail to come, and one with no byte left. -/
theorem witness_EveryAnsweredCallEnds :
    (let s := during .blocks (acc1 0#32) 0 23 true (counting 23);
      s.inv = true ∧ s.rst = false ∧ s.call = some ⟨acc1 0#32, 0, 23, true⟩ ∧
        ∀ o, o < 0 + 23 → 0 ≤ o → (s.mem.read o).isSome = true) ∧
      let s := during .outp (acc1 0#32) 12 0 false []
      s.inv = true ∧ s.rst = false ∧ s.call = some ⟨acc1 0#32, 12, 0, false⟩ ∧
        ∀ o, o < 12 + 0 → 12 ≤ o → (s.mem.read o).isSome = true := by decide +kernel

theorem witness_UnansweredByteHoldsTheCallForEver :
    let s := during .blocks (acc1 0#32) 0 13 true (counting 12)
    s.inv = true ∧ s.rst = false ∧ s.phase = .blocks ∧ s.call = some ⟨acc1 0#32, 0, 13, true⟩ ∧ 0 ≤ 12 ∧ 12 < 0 + 13 ∧
      s.mem.read 12 = none := by decide

theorem witness_EmptyMessageFixture : (offering [0]).presents ⟨0#32, 0#32, 0⟩ := ⟨rfl, rfl, by decide, rfl⟩

/-- No byte, and one zero byte (section 2.9, the all-zero rows). -/
theorem witness_AllZeroCallReturnsZero :
    (0xdeadbeef#32 + BitVec.ofNat 32 0 + 0x21524111#32 = 0#32 ∧
        (offering [0x21524111]).presents ⟨0x21524111#32, 0#32, 0⟩ ∧ (offering [0x21524111]).answers []) ∧
      0xdeadbeef#32 + BitVec.ofNat 32 1 + 0x21524110#32 = 0#32 ∧
      (State.reset.load [0#8] ⟨0x21524110#32, 0#32, 1⟩).presents ⟨0x21524110#32, 0#32, 1⟩ ∧
      (State.reset.load [0#8] ⟨0x21524110#32, 0#32, 1⟩).answers (List.replicate 1 0#8) := by
  refine ⟨⟨by decide, ⟨rfl, rfl, by decide, rfl⟩, ?_⟩, by decide, ⟨rfl, rfl, by decide, rfl⟩, ?_⟩
  · intro i hi
    simp at hi
  · intro i hi
    obtain rfl : i = 0 := by simpa using hi
    rfl

theorem witness_LoadedCommandAnswersFromReset : (countingMsg 25).length < 2 ^ 32 := by decide

theorem witness_CanonicalMemoriesAreEqualAsData :
    Memory.wf 32 (counting 3) = true ∧ Memory.wf 32 ((Memory.write (counting 2) 2 3#8)) = true ∧
      ∀ o, Memory.read (counting 3) o = Memory.read (Memory.write (counting 2) 2 3#8) o :=
  ⟨by decide, by decide, fun _ => rfl⟩

/-- A message that fills the whole space. -/
theorem witness_PlacedMessageIsAnswered :
    (countingMsg 2).length ≤ 2 ^ ({ State.reset with lenW := 1 } : State).lenW ∧ Memory.wf 1 [(1, 9#8)] = true := by
  decide

end Sys2Proof.Tests
end

section
/-! The reads of a call (20_memory.md R57): from acceptance on, every BLOCK and the TAIL read the bytes that are due, in
ascending order, and nothing reads after them. -/

namespace Sys2Proof.Machine

variable {s : State} {msg : List Byte} {r : Call} {c : Command} {k : Nat}

/-! ### The step of each phase -/

/-- The reads inside an answered message give its bytes. -/
theorem readMsg_of_answers {o n : Nat} (ha : s.answers msg) (hf : msg.length ≤ 2 ^ s.lenW) (hn : o + n ≤ msg.length) :
    s.readMsg o n = .ok (sliceOf msg o n) := by
  refine readMsg_ok_iff.mpr ⟨by rw [length_sliceOf]; omega, fun i hi => ⟨by omega, ?_⟩⟩
  rw [getElem?_sliceOf, if_pos hi]
  exact ha (o + i) (by omega)

/-- The step of an idle engine that is presented a command is its acceptance (R110). -/
theorem step_of_presents (h : s.presents c) : step s = .next (s.accept c) := by
  obtain ⟨hrst, hp, hlen, hhead⟩ := h
  obtain ⟨ws, hws⟩ := List.head?_eq_some_iff.mp hhead
  have ha : s.nextAction = .ok (.run (.cmd (encodeCmd c))) := by simp [State.nextAction, hp, hws]
  have hd : decode s.lenW (.cmd (encodeCmd c)) = decodeCmd s.lenW (encodeCmd c) := rfl
  have hc := cmdFields_encodeCmd hlen
  by_cases h2 : c.seed2 = 0#32
  · rw [step_of_run hrst ha (i := .hash c.seed1 c.len) (by simp [hd, decodeCmd, hc, h2])]
    simp [exec, execHash, State.issue, hp, ← h2]
  · rw [step_of_run hrst ha (i := .hashpair c.seed1 c.seed2 c.len) (by simp [hd, decodeCmd, hc, h2])]
    simp [exec, execHashpair, State.issue, hp]

/-- In BLOCKS with a whole block left the step is BLOCK (R113, R115). -/
theorem step_eq_execBlock (hrst : s.rst = false) (hp : s.phase = .blocks) (hr : s.call = some r) (hm : 12 ≤ r.rem) :
    step s = execBlock s :=
  step_of_run (i := .block) hrst (w := .uop (uopCode 2 0)) (by simp [State.nextAction, hp, hr, hm]) (by simp [decode])

/-- In BLOCKS with less than a block left the step is TAIL (R113, R115). -/
theorem step_eq_execTail (hrst : s.rst = false) (hp : s.phase = .blocks) (hr : s.call = some r) (hm : r.rem < 12) :
    step s = execTail r.rem s :=
  step_of_run (i := .tail r.rem) hrst (w := .uop (uopCode 3 r.rem))
    (by simp [State.nextAction, hp, hr, Nat.not_le.mpr hm]) (decodeUop_tail (by omega))

/-- In FIN the step is FINAL (R113, R150). -/
theorem step_of_fin (hrst : s.rst = false) (hp : s.phase = .fin) (hr : s.call = some r) :
    step s = .next ({ s with phase := .outp, call := some { r with acc := finalround r.acc } }.pulse (uopCode 4 0) []) := by
  rw [step_of_run (i := .final) (w := .uop (uopCode 4 0)) hrst (by simp [State.nextAction, hp]) (by simp [decode])]
  simp only [exec, execFinal]
  rw [whenIssued_of _ hp, withCall_of _ hr]

/-- In OUTP the step is OUT (R113, R160). -/
theorem step_of_outp (hrst : s.rst = false) (hp : s.phase = .outp) (hr : s.call = some r) :
    step s = .next ({ s with
      phase := .resp, call := none, result := some { pri := r.acc.c, sec := r.acc.b } }.pulse (uopCode 5 0) []) := by
  rw [step_of_run (i := .out) (w := .uop (uopCode 5 0)) hrst (by simp [State.nextAction, hp]) (by simp [decode])]
  simp only [exec, execOut]
  rw [whenIssued_of _ hp, withCall_of _ hr]

/-! ### A call that is reading its message -/

/-- A call in BLOCKS with these registers over this message, all of whose bytes the host answers. -/
structure State.Reading (s : State) (msg : List Byte) (r : Call) : Prop where
  rst : s.rst = false
  phase : s.phase = .blocks
  call : s.call = some r
  nf : r.nf = needFinal r.rem
  length : r.off + r.rem = msg.length
  fits : msg.length ≤ 2 ^ s.lenW
  answers : s.answers msg

/-- An accepted command starts reading at offset 0. -/
theorem reading_accept (h : s.presents c) (hl : c.len = msg.length) (ha : s.answers msg) :
    (s.accept c).Reading msg (initCall c) := by
  obtain ⟨hrst, -, hlen, -⟩ := h
  exact { rst := hrst, phase := rfl, call := rfl, nf := rfl, length := by simp [hl], fits := by simp; omega,
          answers := ha }

/-- The registers after BLOCK on the message's next twelve bytes (R130). -/
def Call.blockDone (r : Call) (msg : List Byte) : Call :=
  { r with acc := mixBytes r.acc (sliceOf msg r.off 12), off := r.off + 12, rem := r.rem - 12 }

/-- The state after BLOCK on the message's next twelve bytes (R130). -/
def State.blockDone (s : State) (r : Call) (msg : List Byte) : State :=
  { s with call := some (r.blockDone msg) }.pulse (uopCode 2 0) (readOffsets r.off 12)

/-- The registers after TAIL on the message's last bytes (R140). -/
def Call.tailDone (r : Call) (msg : List Byte) : Call :=
  { r with acc := tailFold r.acc r.rem (sliceOf msg r.off r.rem), off := r.off + r.rem, rem := 0 }

/-- The state after TAIL on the message's last bytes (R140). -/
def State.tailDone (s : State) (r : Call) (msg : List Byte) : State :=
  { s with phase := tailPhase r.nf, call := some (r.tailDone msg) }.pulse (uopCode 3 r.rem) (readOffsets r.off r.rem)

@[simp] theorem Call.blockDone_off : (r.blockDone msg).off = r.off + 12 := rfl
@[simp] theorem Call.blockDone_rem : (r.blockDone msg).rem = r.rem - 12 := rfl
@[simp] theorem State.blockDone_reads : (s.blockDone r msg).reads = readOffsets r.off 12 := rfl
@[simp] theorem State.tailDone_reads : (s.tailDone r msg).reads = readOffsets r.off r.rem := rfl

/-- With a whole block left, the step is a BLOCK that completes. -/
theorem State.Reading.step_block (h : s.Reading msg r) (hm : 12 ≤ r.rem) : step s = .next (s.blockDone r msg) := by
  have hx := readMsg_of_answers (o := r.off) (n := 12) h.answers h.fits (by have := h.length; omega)
  rw [step_eq_execBlock h.rst h.phase h.call hm, execBlock_of h.phase h.call hm hx]
  rfl

/-- BLOCK leaves a call that is still reading. -/
theorem State.Reading.blockDone (h : s.Reading msg r) (hm : 12 ≤ r.rem) :
    (s.blockDone r msg).Reading msg (r.blockDone msg) where
  rst := h.rst
  phase := h.phase
  call := rfl
  nf := h.nf.trans (by rw [needFinal, needFinal, Call.blockDone, Config.blockBytes, ← Nat.mod_eq_sub_mod hm])
  length := by have := h.length; simp; omega
  fits := h.fits
  answers := h.answers

/-- With less than a block left, the step is a TAIL that completes. -/
theorem State.Reading.step_tail (h : s.Reading msg r) (hm : r.rem < 12) : step s = .next (s.tailDone r msg) := by
  have hx := readMsg_of_answers (o := r.off) (n := r.rem) h.answers h.fits h.length.le
  rw [step_eq_execTail h.rst h.phase h.call hm, execTail_of h.phase h.call hm hx]
  rfl

/-! ### The reads of the steps to come -/

/-- OUT reads nothing. -/
theorem readsOf_outp (hrst : s.rst = false) (hp : s.phase = .outp) (hr : s.call = some r) : readsOf 1 s = [] := by
  rw [readsOf_succ (k := 0) (step_of_outp hrst hp hr), State.pulse_reads]
  rfl

/-- Neither FINAL nor the OUT behind it reads anything. -/
theorem readsOf_fin (hrst : s.rst = false) (hp : s.phase = .fin) (hr : s.call = some r) : readsOf 2 s = [] := by
  rw [readsOf_succ (step_of_fin hrst hp hr), State.pulse_reads]
  exact readsOf_outp hrst rfl rfl

/-- Behind TAIL nothing reads, whichever phase it left. -/
theorem readsOf_tailPhase {nf : Bool} (hrst : s.rst = false) (hp : s.phase = tailPhase nf) (hr : s.call = some r) :
    readsOf (if nf then 2 else 1) s = [] := by
  cases nf with
  | true => exact readsOf_fin hrst hp hr
  | false => exact readsOf_outp hrst hp hr

/-- A block more is a micro-operation more (R80). -/
theorem uopCount_sub_block {len : Nat} (h : 12 ≤ len) : uopCount len = uopCount (len - 12) + 1 := by
  unfold uopCount
  split <;> split <;> omega

/-- A message without a block takes INIT, TAIL and what follows TAIL (R80). -/
theorem uopCount_of_lt {len : Nat} (h : len < 12) : uopCount len = (if needFinal len then 2 else 1) + 2 := by
  simp only [uopCount, needFinal, Config.blockBytes, Nat.mod_eq_of_lt h, Nat.div_eq_of_lt h]
  by_cases h0 : len = 0 <;> simp [h0]

/-- From TAIL on a call reads what is left of the message. -/
theorem State.Reading.readsOf_tail (h : s.Reading msg r) (hm : r.rem < 12) (hk : uopCount r.rem = k + 1) :
    readsOf k s = List.range' r.off r.rem := by
  obtain rfl : k = (if r.nf then 2 else 1) + 1 := by
    rw [uopCount_of_lt hm, ← h.nf] at hk
    exact (Nat.succ.inj hk).symm
  have hnone : readsOf (if r.nf then 2 else 1) (s.tailDone r msg) = [] := readsOf_tailPhase h.rst rfl rfl
  rw [readsOf_succ (h.step_tail hm), State.tailDone_reads, hnone, List.append_nil, readOffsets]

/-- A call that is reading reads from `off` on to the end of the message, one block after the other. -/
theorem State.Reading.readsOf_rest (h : s.Reading msg r) (hk : uopCount r.rem = k + 1) :
    readsOf k s = List.range' r.off r.rem := by
  induction k generalizing s r with
  | zero =>
    unfold uopCount at hk
    split at hk <;> omega
  | succ k ih =>
    by_cases hm : 12 ≤ r.rem
    · have hk' : uopCount (r.blockDone msg).rem = k + 1 := by
        rw [uopCount_sub_block hm] at hk
        exact Nat.succ.inj hk
      calc readsOf (k + 1) s
          = readOffsets r.off 12 ++ readsOf k (s.blockDone r msg) := readsOf_succ (h.step_block hm)
        _ = List.range' r.off 12 ++ List.range' (r.off + 12) (r.rem - 12) := by rw [ih (h.blockDone hm) hk']; rfl
        _ = List.range' r.off r.rem := by rw [List.range'_append_1, Nat.add_sub_cancel' hm]
    · exact h.readsOf_tail (by omega) hk

/-- Settles O50: INIT reads nothing, and the call it starts reads from offset 0 on to the end of the message. -/
theorem callReadsEveryByteOnceAscending : Obligations.CallReadsEveryByteOnceAscending := by
  intro s c msg hp hl ha
  obtain ⟨k, hk⟩ : ∃ k, uopCount c.len = k + 1 := by
    unfold uopCount
    split <;> exact ⟨_, rfl⟩
  have hr := (reading_accept hp hl ha).readsOf_rest hk
  rw [hk, readsOf_succ (step_of_presents hp), State.accept_reads, hr, List.range_eq_range']
  rfl

end Sys2Proof.Machine
end

section
/-! The command word (30_encoding.md R71, R79): every value of it is a HASHPAIR over its three fields, and HASH is the
HASHPAIR whose second seed is 0. -/

namespace Sys2Proof.Machine

variable {s : State} {lenW w : Nat} {c : Command}

/-- HASHPAIR is the host command over its three operands (R110). -/
@[simp] theorem exec_hashpair (seed1 seed2 : Word) (len : Nat) (s : State) :
    exec (.hashpair seed1 seed2 len) s = s.issue ⟨seed1, seed2, len⟩ := rfl

/-- HASH is the host command whose second seed is 0 (R79, R163). -/
@[simp] theorem exec_hash (seed : Word) (len : Nat) (s : State) :
    exec (.hash seed len) s = s.issue ⟨seed, 0#32, len⟩ := rfl

/-- The three fields of a command word are its bits [31:0], [63:32] and [63+LEN_W:64]. -/
theorem cmdFields_toNat (w : BitVec (64 + lenW)) :
    cmdFields lenW w.toNat = some
      { seed1 := w.extractLsb' 0 32, seed2 := w.extractLsb' 32 32, len := (w.extractLsb' 64 lenW).toNat } := by
  have hlen : w.toNat / 2 ^ 64 < 2 ^ lenW := Nat.div_lt_of_lt_mul (Nat.pow_add 2 64 lenW ▸ w.isLt)
  rw [cmdFields, if_pos w.isLt]
  simp only [BitVec.extractLsb', BitVec.toNat_ofNat, Nat.shiftRight_eq_div_pow, Nat.mod_eq_of_lt hlen, Nat.pow_zero,
    Nat.div_one]

/-- Whichever row the decoder prints for a command word, its effect is the host command over the word's fields. -/
theorem decodeCmd_issues (h : cmdFields lenW w = some c) :
    ∃ i, decodeCmd lenW w = .ok i ∧ ∀ s, exec i s = s.issue c := by
  by_cases h2 : c.seed2 = 0#32
  · exact ⟨.hash c.seed1 c.len, by simp [decodeCmd, h, h2], fun s => by rw [exec_hash, ← h2]⟩
  · exact ⟨.hashpair c.seed1 c.seed2 c.len, by simp [decodeCmd, h, h2], fun s => exec_hashpair ..⟩

/-- Settles O3: the word's fields are its bits, and what it decodes to issues the command over these fields. -/
theorem everyCommandWordIsHashpair : Obligations.EveryCommandWordIsHashpair := by
  intro lenW w seed1 seed2 len
  have hf : cmdFields lenW w.toNat = some ⟨seed1, seed2, len⟩ := cmdFields_toNat w
  obtain ⟨i, hd, hi⟩ := decodeCmd_issues hf
  exact ⟨hf, i, hd, fun s => (hi s).trans (exec_hashpair ..).symm⟩

/-- Settles O7: word, listing and function agree as defined, and in every state both issue the same host command. -/
theorem hashExpandsToHashpair : Obligations.HashExpandsToHashpair := by
  intro seed len
  have hexec : ∀ s, exec (.hash seed len) s = exec (.hashpair seed 0#32 len) s := fun s => by
    rw [exec_hash, exec_hashpair]
  exact ⟨rfl, hexec, rfl, rfl, fun _ => rfl⟩

end Sys2Proof.Machine
end

section
/-! The trace of a call (30_encoding.md R80): behind INIT's pulse every BLOCK pulses 20, TAIL pulses 30 + r, and what
follows TAIL pulses 40 and 50, or 50 alone. -/

namespace Sys2Proof.Machine

variable {s : State} {msg : List Byte} {r : Call} {len k : Nat}

@[simp] theorem State.blockDone_trc : (s.blockDone r msg).trc = some 0x20#8 := rfl
@[simp] theorem State.tailDone_trc : (s.tailDone r msg).trc = some (uopCode 3 r.rem) := rfl

/-- The code of TAIL r is 30 + r (R73). -/
theorem uopCode_tail (r : Nat) : uopCode 3 r = 0x30#8 + BitVec.ofNat 8 r := BitVec.ofNat_add 48 r

/-! ### The trace as a function of the length -/

/-- Behind INIT's code, a message with a whole block left goes on with BLOCK's. -/
theorem callTrace_tail_of_block (h : 12 ≤ len) : (callTrace len).tail = 0x20#8 :: (callTrace (len - 12)).tail := by
  have hn : len / 12 = (len - 12) / 12 + 1 := by omega
  simp [callTrace, hn, List.replicate_succ, ← Nat.mod_eq_sub_mod h]

/-- Behind INIT's code, a message without a whole block has TAIL's, FINAL's where it is needed, and OUT's. -/
theorem callTrace_tail_of_lt (h : len < 12) :
    (callTrace len).tail = uopCode 3 len :: ((if needFinal len then [0x40#8] else []) ++ [0x50#8]) := by
  simp [callTrace, needFinal, Config.blockBytes, uopCode_tail, Nat.mod_eq_of_lt h, Nat.div_eq_of_lt h]

/-- Behind INIT at least one more micro-operation follows (R80). -/
theorem one_lt_uopCount (len : Nat) : 1 < uopCount len := by
  unfold uopCount
  split <;> omega

/-! ### The codes of the steps to come -/

/-- OUT pulses 50. -/
theorem traceOf_outp (hrst : s.rst = false) (hp : s.phase = .outp) (hr : s.call = some r) :
    traceOf 1 s = [0x50#8] := by
  rw [traceOf_succ (k := 0) (step_of_outp hrst hp hr), State.pulse_trc]
  rfl

/-- FINAL pulses 40, and the OUT behind it 50. -/
theorem traceOf_fin (hrst : s.rst = false) (hp : s.phase = .fin) (hr : s.call = some r) :
    traceOf 2 s = [0x40#8, 0x50#8] := by
  rw [traceOf_succ (step_of_fin hrst hp hr), State.pulse_trc]
  exact congrArg (0x40#8 :: ·) (traceOf_outp hrst rfl rfl)

/-- Behind TAIL come the codes of the phase it left. -/
theorem traceOf_tailPhase {nf : Bool} (hrst : s.rst = false) (hp : s.phase = tailPhase nf) (hr : s.call = some r) :
    traceOf (if nf then 2 else 1) s = (if nf then [0x40#8] else []) ++ [0x50#8] := by
  cases nf with
  | true => exact traceOf_fin hrst hp hr
  | false => exact traceOf_outp hrst hp hr

/-- From TAIL on a call pulses the codes that its remaining length gives. -/
theorem State.Reading.traceOf_tail (h : s.Reading msg r) (hm : r.rem < 12) (hk : uopCount r.rem = k + 1) :
    traceOf k s = (callTrace r.rem).tail := by
  obtain rfl : k = (if r.nf then 2 else 1) + 1 := by
    rw [uopCount_of_lt hm, ← h.nf] at hk
    exact (Nat.succ.inj hk).symm
  have hrest : traceOf (if r.nf then 2 else 1) (s.tailDone r msg) = (if r.nf then [0x40#8] else []) ++ [0x50#8] :=
    traceOf_tailPhase h.rst rfl rfl
  rw [traceOf_succ (h.step_tail hm), hrest, callTrace_tail_of_lt hm, ← h.nf]
  rfl

/-- A call that is reading pulses the codes that its remaining length gives, one block after the other. -/
theorem State.Reading.traceOf_rest (h : s.Reading msg r) (hk : uopCount r.rem = k + 1) :
    traceOf k s = (callTrace r.rem).tail := by
  induction k generalizing s r with
  | zero => exact absurd hk (one_lt_uopCount r.rem).ne'
  | succ k ih =>
    by_cases hm : 12 ≤ r.rem
    · have hk' : uopCount (r.blockDone msg).rem = k + 1 := Nat.succ.inj ((uopCount_sub_block hm).symm.trans hk)
      rw [traceOf_succ (h.step_block hm), ih (h.blockDone hm) hk', callTrace_tail_of_block hm]
      rfl
    · exact h.traceOf_tail (by omega) hk

/-- Settles O49: INIT pulses 10, and the call it starts pulses the rest of `callTrace` of its length. -/
theorem callTraceIsAFunctionOfTheLength : Obligations.CallTraceIsAFunctionOfTheLength := by
  intro s c msg hp hl ha
  obtain ⟨k, hk⟩ := Nat.exists_eq_add_of_lt (Nat.zero_lt_of_lt (one_lt_uopCount c.len))
  rw [Nat.zero_add] at hk
  have hr := (reading_accept hp hl ha).traceOf_rest hk
  rw [hk, traceOf_succ (step_of_presents hp), State.accept_trc, hr]
  rfl

end Sys2Proof.Machine
end

section
/-! The laws of the datapath's four operations (40_arith_and_bytes.md R99). A line of a round is a chain of changes
that each replace one accumulator by a bijection of itself while the other two stand still; turning the trio makes each
of them a change of `a` that depends on `c` alone. -/

namespace Sys2Proof.Machine

open Function

/-! ### Rotation -/

/-- Bit i of a rotated word is bit (i − k) mod 32 of the word (R94). -/
theorem getElem_rotl (x : Word) (k : Fin 32) {i : Nat} (hi : i < 32) :
    (rotl x k)[i] = x[(i + 32 - k.val) % 32]'(Nat.mod_lt _ (by decide)) := by
  have hk := k.isLt
  simp only [rotl_eq_rotateLeft, BitVec.getElem_rotateLeft, Nat.mod_eq_of_lt hk]
  split <;> (congr 1; omega)

/-- Rotations add up modulo 32 (R99 item 3). -/
theorem rotl_rotl (x : Word) (j k : Fin 32) : rotl (rotl x j) k = rotl x (j + k) := by
  ext i hi
  have hj := j.isLt
  have hk := k.isLt
  simp only [getElem_rotl, Fin.val_add]
  congr 1
  omega

theorem rotl_xor (x y : Word) (k : Fin 32) : rotl (x ^^^ y) k = rotl x k ^^^ rotl y k := by
  ext i hi
  simp only [getElem_rotl, BitVec.getElem_xor]

@[simp] theorem rotl_zero_word (k : Fin 32) : rotl 0#32 k = 0#32 := by
  ext i hi
  simp only [getElem_rotl, BitVec.getElem_zero]

/-! ### Bijections on words (R99 item 4) -/

theorem bijective_sub_word (y : Word) : Bijective fun x : Word => x - y := (Equiv.subRight y).bijective

theorem bijective_add_word (y : Word) : Bijective fun x : Word => x + y := (Equiv.addRight y).bijective

theorem bijective_xor_word (y : Word) : Bijective fun x : Word => x ^^^ y := (xor_left_involutive y).bijective

/-! ### Bijections on the trio -/

/-- The trio turned by one place, so that `b` stands at `a`, `c` at `b` and `a` at `c`. -/
def Acc.turn (t : Acc) : Acc := { a := t.b, b := t.c, c := t.a }

/-- A change of `a` by `f c`: it depends on `c` alone and leaves `b` and `c` as they are. -/
def Acc.changeA (f : Word → Word → Word) (t : Acc) : Acc := { t with a := f t.c t.a }

/-- An operation on the trio done one place on: on `b`, `c`, `a` in place of `a`, `b`, `c`. -/
def Acc.shifted (g : Acc → Acc) : Acc → Acc := Acc.turn ∘ Acc.turn ∘ g ∘ Acc.turn

theorem Acc.bijective_turn : Bijective Acc.turn :=
  bijective_iff_has_inverse.mpr ⟨Acc.turn ∘ Acc.turn, fun _ => rfl, fun _ => rfl⟩

theorem Acc.bijective_shifted {g : Acc → Acc} (hg : Bijective g) : Bijective (Acc.shifted g) :=
  bijective_turn.comp <| bijective_turn.comp <| hg.comp bijective_turn

/-- The change is undone by undoing what it does to `a`, because it leaves `c` as it was. -/
theorem Acc.bijective_changeA {f : Word → Word → Word} (hf : ∀ c, Bijective (f c)) : Bijective (Acc.changeA f) := by
  constructor
  · rintro ⟨a, b, c⟩ ⟨a', b', c'⟩ h
    simp only [changeA, Acc.mk.injEq] at h
    obtain ⟨ha, rfl, rfl⟩ := h
    rw [(hf c).injective ha]
  · rintro ⟨a, b, c⟩
    obtain ⟨a', rfl⟩ := (hf c).surjective a
    exact ⟨⟨a', b, c⟩, rfl⟩

/-! ### The lines of the rounds -/

/-- A line of the mixing round: first a -= c; a ^= rotl(c, k), then c += b, which is a += c two places on (R131). -/
theorem mixLineA_eq (k : Fin 32) :
    mixLineA k = Acc.shifted (Acc.shifted (Acc.changeA fun c a => a + c)) ∘
      Acc.changeA fun c a => (a - c) ^^^ rotl c k := rfl

theorem mixLineB_eq (k : Fin 32) : mixLineB k = Acc.shifted (mixLineA k) := rfl

theorem mixLineC_eq (k : Fin 32) : mixLineC k = Acc.shifted (mixLineB k) := rfl

theorem finLineA_eq (k : Fin 32) : finLineA k = Acc.changeA fun c a => (a ^^^ c) - rotl c k := rfl

theorem finLineB_eq (k : Fin 32) : finLineB k = Acc.shifted (finLineA k) := rfl

theorem finLineC_eq (k : Fin 32) : finLineC k = Acc.shifted (finLineB k) := rfl

theorem bijective_mixLineA (k : Fin 32) : Bijective (mixLineA k) := by
  have hadd : Bijective (Acc.changeA fun c a => a + c) := Acc.bijective_changeA bijective_add_word
  have hsub : Bijective (Acc.changeA fun c a => (a - c) ^^^ rotl c k) :=
    Acc.bijective_changeA fun c => (bijective_xor_word (rotl c k)).comp (bijective_sub_word c)
  rw [mixLineA_eq]
  exact (Acc.bijective_shifted (Acc.bijective_shifted hadd)).comp hsub

theorem bijective_mixLineB (k : Fin 32) : Bijective (mixLineB k) :=
  mixLineB_eq k ▸ Acc.bijective_shifted (bijective_mixLineA k)

theorem bijective_mixLineC (k : Fin 32) : Bijective (mixLineC k) :=
  mixLineC_eq k ▸ Acc.bijective_shifted (bijective_mixLineB k)

theorem bijective_finLineA (k : Fin 32) : Bijective (finLineA k) :=
  finLineA_eq k ▸ Acc.bijective_changeA fun c => (bijective_sub_word (rotl c k)).comp (bijective_xor_word c)

theorem bijective_finLineB (k : Fin 32) : Bijective (finLineB k) :=
  finLineB_eq k ▸ Acc.bijective_shifted (bijective_finLineA k)

theorem bijective_finLineC (k : Fin 32) : Bijective (finLineC k) :=
  finLineC_eq k ▸ Acc.bijective_shifted (bijective_finLineB k)

/-! ### The rounds -/

/-- The six lines of R131 one after the other. -/
theorem bijective_mixround : Bijective mixround :=
  (bijective_mixLineC 4).comp <| (bijective_mixLineB 19).comp <| (bijective_mixLineA 16).comp <|
    (bijective_mixLineC 8).comp <| (bijective_mixLineB 6).comp (bijective_mixLineA 4)

/-- The seven lines of R151 one after the other. -/
theorem bijective_finalround : Bijective finalround :=
  (bijective_finLineC 24).comp <| (bijective_finLineB 14).comp <| (bijective_finLineA 4).comp <|
    (bijective_finLineC 16).comp <| (bijective_finLineB 25).comp <| (bijective_finLineA 11).comp
      (bijective_finLineC 14)

/-- Settles O9, item by item of R99. Rotation by 1 does not distribute over 2^31 +32 2^31, whose carry is lost, nor over
0 -32 1, whose borrow fills the word. -/
theorem datapathLaws : Obligations.DatapathLaws := by
  refine ⟨fun x y => ⟨BitVec.sub_add_cancel x y, BitVec.add_sub_cancel x y, xor_cancel_right x y⟩, rotl_rotl, rotl_xor,
    ⟨0x80000000#32, 0x80000000#32, 1, ?add⟩, ⟨0#32, 1#32, 1, ?sub⟩,
    fun y => ⟨bijective_sub_word y, bijective_add_word y, bijective_xor_word y⟩,
    fun k => ⟨bijective_mixLineA k, bijective_mixLineB k, bijective_mixLineC k⟩,
    fun k => ⟨bijective_finLineA k, bijective_finLineB k, bijective_finLineC k⟩,
    bijective_mixround, bijective_finalround, by decide, by decide, by decide, rotl_zero_word⟩
  case add => decide
  case sub => decide

end Sys2Proof.Machine
end

section
/-! The sequencer's choice (41_seed_driver_init.md R113): which step each phase takes, and the phase each step leaves. -/

namespace Sys2Proof.Machine

variable {s t : State} {c : Command}

/-! ### The step of each phase -/

theorem nextAction_idle_of_nil (hp : s.phase = .idle) (hc : s.cmds = []) : s.nextAction = .ok .wait := by
  simp [State.nextAction, hp, hc]

theorem nextAction_resp (hp : s.phase = .resp) :
    s.nextAction = if s.rspReady then .ok .rspack else .ok .wait := by
  simp [State.nextAction, hp]

/-- INIT with a command on the port is its acceptance (R110, R111). -/
theorem execInit_of_presents (h : s.presents c) : execInit s = .next (s.accept c) := by
  obtain ⟨-, hp, hlen, hhead⟩ := h
  obtain ⟨ws, hws⟩ := List.head?_eq_some_iff.mp hhead
  unfold execInit
  rw [whenIssued_of _ hp]
  simp [hws, cmdFields_encodeCmd hlen]

theorem step_eq_execInit (h : s.presents c) : step s = execInit s :=
  (step_of_presents h).trans (execInit_of_presents h).symm

/-- In FIN the step is FINAL, whether or not the registers are live (R113). -/
theorem step_eq_execFinal (hrst : s.rst = false) (hp : s.phase = .fin) : step s = execFinal s :=
  step_of_run (i := .final) (w := .uop (uopCode 4 0)) hrst (by simp [State.nextAction, hp]) decodeUop_final

/-- In OUTP the step is OUT, whether or not the registers are live (R113). -/
theorem step_eq_execOut (hrst : s.rst = false) (hp : s.phase = .outp) : step s = execOut s :=
  step_of_run (i := .out) (w := .uop (uopCode 5 0)) hrst (by simp [State.nextAction, hp]) decodeUop_out

/-! ### The phase each step leaves -/

theorem execInit_leaves_blocks (h : execInit s = .next t) : t.phase = .blocks := by
  obtain ⟨_, _, c, -, -, -, rfl⟩ := execInit_next h
  exact s.accept_phase c

/-- BLOCK stays in BLOCKS, done or held. -/
theorem execBlock_leaves_blocks (h : execBlock s = .next t) : t.phase = .blocks := by
  obtain ⟨_, hp, -, -, ⟨_, -, rfl⟩ | ⟨_, -, rfl⟩⟩ := execBlock_next h
  · exact hp
  · exact hp

/-- TAIL goes where NF says once its bytes are folded, with a code on the trace port; held, it stays in BLOCKS without
one (R113, R183). -/
theorem execTail_leaves {n : Nat} {r : Call} (h : execTail n s = .next t) (hr : s.call = some r) :
    t.phase = if t.trc = none then .blocks else tailPhase r.nf := by
  obtain ⟨g, hp, hg, -, -, hcase⟩ := execTail_next h
  obtain rfl : r = g := Option.some.inj (hr.symm.trans hg)
  obtain ⟨_, -, rfl⟩ | ⟨_, -, rfl⟩ := hcase
  · simp
  · simp [hp]

theorem execFinal_leaves_outp (h : execFinal s = .next t) : t.phase = .outp := by
  obtain ⟨_, -, -, rfl⟩ := execFinal_next h
  rfl

theorem execOut_leaves_resp (h : execOut s = .next t) : t.phase = .resp := by
  obtain ⟨_, -, -, rfl⟩ := execOut_next h
  rfl

theorem respond_leaves_idle (h : s.respond = .next t) : t.phase = .idle := by
  obtain ⟨_, -, -, -, rfl⟩ := respond_next h
  rfl

/-- Settles O29: the step of each phase, then the phase each step leaves. -/
theorem sequencerChoosesTheNextStep : Obligations.SequencerChoosesTheNextStep := fun s hrst => by
  refine ⟨?idle_empty, ?idle_command, ?block, ?tail, step_eq_execFinal hrst, step_eq_execOut hrst, ?resp_ready,
    ?resp_held, fun _ => execInit_leaves_blocks, fun _ => execBlock_leaves_blocks, fun _ _ _ => execTail_leaves,
    fun _ => execFinal_leaves_outp, fun _ => execOut_leaves_resp, fun _ => respond_leaves_idle⟩
  case idle_empty => exact fun hp hc => step_of_wait hrst (nextAction_idle_of_nil hp hc)
  case idle_command =>
    intro c rest hp hc hlen
    exact step_eq_execInit (c := c) ⟨hrst, hp, hlen, by rw [hc, List.head?_cons]⟩
  case block => exact fun r hp hr hm => step_eq_execBlock hrst hp hr hm
  case tail => exact fun r hp hr hm => step_eq_execTail hrst hp hr hm
  case resp_ready => exact fun hp hready => step_of_rspack hrst (by rw [nextAction_resp hp, hready, if_pos rfl])
  case resp_held => exact fun hp hready => step_of_wait hrst (by rw [nextAction_resp hp, hready]; rfl)

end Sys2Proof.Machine
end

section
/-! The block mixer (42_block_mixer.md R130 to R132): a block's twelve bytes as three little-endian numbers, and the
mixing round operation by operation. -/

namespace Sys2Proof.Machine

variable {s : State}

/-! ### The mixing round -/

/-- The three operations of lines 1 and 4 in their order (R131). -/
theorem mixLineA_operations (k : Fin 32) (a b c : Word) :
    mixLineA k ⟨a, b, c⟩ =
      (let a := a - c; let a := a ^^^ c.rotateLeft k.val; let c := c + b; ⟨a, b, c⟩) := by
  rw [mixLineA, rotl_eq_rotateLeft]

/-- The three operations of lines 2 and 5 in their order (R131). -/
theorem mixLineB_operations (k : Fin 32) (a b c : Word) :
    mixLineB k ⟨a, b, c⟩ =
      (let b := b - a; let b := b ^^^ a.rotateLeft k.val; let a := a + c; ⟨a, b, c⟩) := by
  rw [mixLineB, rotl_eq_rotateLeft]

/-- The three operations of lines 3 and 6 in their order (R131). -/
theorem mixLineC_operations (k : Fin 32) (a b c : Word) :
    mixLineC k ⟨a, b, c⟩ =
      (let c := c - b; let c := c ^^^ b.rotateLeft k.val; let b := b + a; ⟨a, b, c⟩) := by
  rw [mixLineC, rotl_eq_rotateLeft]

/-- Settles O11: each of the six lines is its three operations, and the round is the lines one after the other. -/
theorem mixroundIsItsSixLines : Obligations.MixroundIsItsSixLines := by
  intro a b c
  simp only [mixround, mixLineA_operations, mixLineB_operations, mixLineC_operations]
  rfl

/-! ### The words of a block -/

/-- The byte helper as a number: the unsigned byte times 2^k (R96). -/
theorem byteAt_eq_ofNat (x : Byte) (k : Nat) : byteAt x k = BitVec.ofNat 32 (2 ^ k * x.toNat) := by
  apply BitVec.eq_of_toNat_eq
  simp [byteAt, Nat.shiftLeft_eq, Nat.mul_comm]

/-- Four bytes as their little-endian number (R97). -/
theorem wordLe_eq_ofNat (x0 x1 x2 x3 : Byte) :
    wordLe x0 x1 x2 x3 =
      BitVec.ofNat 32 (x0.toNat + 2 ^ 8 * x1.toNat + 2 ^ 16 * x2.toNat + 2 ^ 24 * x3.toNat) := by
  simp only [wordLe, byteAt_eq_ofNat, Nat.pow_zero, Nat.one_mul, BitVec.ofNat_add]

/-- The words of a block are its bytes in groups of four (R130). -/
theorem mixBytes_eq_blockmix (t : Acc) (msg : Nat → Byte) :
    mixBytes t ((List.range 12).map msg) =
      blockmix t (wordLe (msg 0) (msg 1) (msg 2) (msg 3)) (wordLe (msg 4) (msg 5) (msg 6) (msg 7))
        (wordLe (msg 8) (msg 9) (msg 10) (msg 11)) := by
  simp only [← partLe_four]
  rfl

/-! ### BLOCK -/

@[simp] theorem exec_block (s : State) : exec .block s = execBlock s := rfl

/-- Reads inside the message space that are all answered give the bytes answered, in order (R57). -/
theorem readMsg_of_answered {o n : Nat} {msg : Nat → Byte} (hs : o + n ≤ 2 ^ s.lenW)
    (h : ∀ i, i < n → s.mem.read (o + i) = some (msg i)) : s.readMsg o n = .ok ((List.range n).map msg) := by
  refine readMsg_ok_iff.mpr ⟨by simp, fun i hi => ⟨by omega, ?_⟩⟩
  rw [h i hi, List.getElem?_map, List.getElem?_range hi, Option.map_some]

/-- The offsets of `n` reads are the first `n` from `o` on (R57). -/
theorem readOffsets_eq_map (o n : Nat) : readOffsets o n = (List.range n).map (o + ·) :=
  List.range'_eq_map_range

/-- Settles O19: with its bytes answered BLOCK completes, and `blockmix` adds the block's words before it mixes. -/
theorem blockConsumesTwelveBytes : Obligations.BlockConsumesTwelveBytes := by
  intro s r msg hp hr hm hs hread
  rw [exec_block, execBlock_of hp hr hm (readMsg_of_answered hs hread), mixBytes_eq_blockmix, blockmix,
    readOffsets_eq_map]
  simp only [wordLe_eq_ofNat]
  rfl

end Sys2Proof.Machine
end

section
/-! The tail fold (43_tail_fold.md R140): the last bytes are added as BLOCK's addition step would add them, the missing
ones taken as zero. -/

namespace Sys2Proof.Machine

/-! ### The words of a tail -/

@[simp] theorem byteAt_zero (k : Nat) : byteAt 0#8 k = 0#32 := by simp [byteAt]

/-- Up to four bytes, the missing ones zero, are one little-endian word (R97, R98). -/
theorem partLe_eq_wordLe_getD : ∀ {xs : List Byte}, xs.length ≤ 4 →
    partLe xs = wordLe (xs.getD 0 0#8) (xs.getD 1 0#8) (xs.getD 2 0#8) (xs.getD 3 0#8)
  | [], _ => rfl
  | [_], _ => by simp [partLe, partLeFrom, wordLe]
  | [_, _], _ => by simp [partLe, partLeFrom, wordLe]
  | [_, _, _], _ => by simp [partLe, partLeFrom, wordLe, BitVec.add_assoc]
  | [x0, x1, x2, x3], _ => partLe_four x0 x1 x2 x3
  | _ :: _ :: _ :: _ :: _ :: _, h => absurd h (by simp only [List.length_cons]; omega)

/-- As many of four bytes from position `o` as the list still holds are one word of the zero-padded list. -/
theorem partLe_sliceOf_rest (xs : List Byte) (o : Nat) :
    partLe (sliceOf xs o (min (xs.length - o) 4)) =
      wordLe (xs.getD o 0#8) (xs.getD (o + 1) 0#8) (xs.getD (o + 2) 0#8) (xs.getD (o + 3) 0#8) := by
  have hslice : sliceOf xs o (min (xs.length - o) 4) = sliceOf xs o 4 := by
    simp [sliceOf, Nat.min_comm, ← List.length_drop, ← List.take_eq_take_min]
  rw [hslice, partLe_eq_wordLe_getD (by simp [length_sliceOf])]
  simp [List.getD_eq_getElem?_getD, getElem?_sliceOf]

/-- TAIL adds the three words of the zero-padded block; `c` has no fourth byte (R140). -/
theorem tailFold_eq_wordLe (t : Acc) {xs : List Byte} (h : xs.length ≤ 11) :
    tailFold t xs.length xs =
      { a := t.a + wordLe (xs.getD 0 0#8) (xs.getD 1 0#8) (xs.getD 2 0#8) (xs.getD 3 0#8)
        b := t.b + wordLe (xs.getD 4 0#8) (xs.getD 5 0#8) (xs.getD 6 0#8) (xs.getD 7 0#8)
        c := t.c + wordLe (xs.getD 8 0#8) (xs.getD 9 0#8) (xs.getD 10 0#8) 0#8 } := by
  have ha := partLe_sliceOf_rest xs 0
  have hb := partLe_sliceOf_rest xs 4
  have hc := partLe_sliceOf_rest xs 8
  rw [Nat.sub_zero] at ha
  rw [Nat.min_eq_left (by omega), List.getD_eq_default (n := 8 + 3) _ _ h] at hc
  simp only [tailFold, ha, hb, hc]

/-! ### TAIL -/

@[simp] theorem exec_tail (r : Nat) (s : State) : exec (.tail r) s = execTail r s := rfl

/-- A byte of the first `r`, the missing ones zero, as a number. -/
theorem toNat_getD_map_range (msg : Nat → Byte) (r i : Nat) :
    (((List.range r).map msg).getD i 0#8).toNat = if i < r then (msg i).toNat else 0 := by
  by_cases hi : i < r <;> simp [List.getD_eq_getElem?_getD, hi]

/-- The bytes of a tail as numbers, byte `i` of the word weighing 2^(8·i) (R140). -/
theorem tailFold_map_range (acc : Acc) (msg : Nat → Byte) {r : Nat} (hr : r < 12) :
    let t := fun i => if i < r then (msg i).toNat else 0
    tailFold acc r ((List.range r).map msg) =
      { a := acc.a + BitVec.ofNat 32 (t 0 + 2 ^ 8 * t 1 + 2 ^ 16 * t 2 + 2 ^ 24 * t 3)
        b := acc.b + BitVec.ofNat 32 (t 4 + 2 ^ 8 * t 5 + 2 ^ 16 * t 6 + 2 ^ 24 * t 7)
        c := acc.c + BitVec.ofNat 32 (t 8 + 2 ^ 8 * t 9 + 2 ^ 16 * t 10) } := by
  have hlen : ((List.range r).map msg).length = r := by simp
  have hfold := tailFold_eq_wordLe acc (xs := (List.range r).map msg) (by omega)
  simpa only [hlen, wordLe_eq_ofNat, toNat_getD_map_range, BitVec.toNat_zero, Nat.mul_zero,
    Nat.add_zero] using hfold

/-- Settles O20: with its bytes answered TAIL completes, adding the words of the zero-padded block. -/
theorem tailFoldsTheLastBytes : Obligations.TailFoldsTheLastBytes := by
  rintro s g _ msg hp hg hm rfl hs hread
  rw [exec_tail, execTail_of hp hg hm (readMsg_of_answered hs hread), tailFold_map_range g.acc msg hm, uopCode_tail,
    readOffsets_eq_map]
  rfl

end Sys2Proof.Machine
end

section
/-! The final avalanche (44_finalizer_avalanche.md R150, R151): the final round operation by operation, what FINAL does,
and how phase FIN is entered. -/

namespace Sys2Proof.Machine

variable {s t : State}

/-! ### The final round -/

/-- The two operations of lines 1, 4 and 7 in their order (R151). -/
theorem finLineC_operations (k : Fin 32) (a b c : Word) :
    finLineC k ⟨a, b, c⟩ = (let c := c ^^^ b; let c := c - b.rotateLeft k.val; ⟨a, b, c⟩) := by
  rw [finLineC, rotl_eq_rotateLeft]

/-- The two operations of lines 2 and 5 in their order (R151). -/
theorem finLineA_operations (k : Fin 32) (a b c : Word) :
    finLineA k ⟨a, b, c⟩ = (let a := a ^^^ c; let a := a - c.rotateLeft k.val; ⟨a, b, c⟩) := by
  rw [finLineA, rotl_eq_rotateLeft]

/-- The two operations of lines 3 and 6 in their order (R151). -/
theorem finLineB_operations (k : Fin 32) (a b c : Word) :
    finLineB k ⟨a, b, c⟩ = (let b := b ^^^ a; let b := b - a.rotateLeft k.val; ⟨a, b, c⟩) := by
  rw [finLineB, rotl_eq_rotateLeft]

/-- Settles O12: each of the seven lines is its two operations, and the round is the lines one after the other. -/
theorem finalroundIsItsSevenLines : Obligations.FinalroundIsItsSevenLines := by
  intro a b c
  simp only [finalround, finLineA_operations, finLineB_operations, finLineC_operations]
  rfl

/-- Every line takes zeros to zeros, because rotation does (R99 item 5). -/
theorem finalround_zero :
    finalround { a := 0#32, b := 0#32, c := 0#32 } = { a := 0#32, b := 0#32, c := 0#32 } := by
  simp [finalround, finLineA, finLineB, finLineC]

/-! ### FINAL -/

@[simp] theorem exec_final (s : State) : exec .final s = execFinal s := rfl

/-- FINAL in FIN on live registers. -/
theorem execFinal_of {r : Call} (hp : s.phase = .fin) (hr : s.call = some r) :
    execFinal s =
      .next ({ s with phase := .outp, call := some { r with acc := finalround r.acc } }.pulse (uopCode 4 0) []) := by
  unfold execFinal
  rw [whenIssued_of _ hp, withCall_of _ hr]

/-! ### How FIN is entered -/

theorem tailPhase_eq_fin_iff {nf : Bool} : tailPhase nf = .fin ↔ nf = true := by
  cases nf <;> decide

/-- A host command leads to BLOCKS or leaves the phase as it is. -/
theorem issue_avoids_fin {c : Command} (h : s.issue c = .next t) (hs : s.phase ≠ .fin) : t.phase ≠ .fin := by
  obtain ⟨-, rfl⟩ | ⟨-, rfl⟩ := issue_next h
  · simp
  · exact hs

/-- TAIL leads to FIN only where NF = 1 (R140). -/
theorem execTail_enters_fin {n : Nat} (h : execTail n s = .next t) (ht : t.phase = .fin) :
    ∃ r, s.phase = .blocks ∧ s.call = some r ∧ r.nf = true ∧ r.rem < 12 ∧ n = r.rem := by
  obtain ⟨r, hp, hr, hm, hn, ⟨_, -, rfl⟩ | ⟨_, -, rfl⟩⟩ := execTail_next h
  · exact ⟨r, hp, hr, tailPhase_eq_fin_iff.mp ht, hm, hn⟩
  · simp [hp] at ht

/-- From any other phase no instruction but TAIL r leads to FIN. -/
theorem exec_enters_fin {i : Instr} (h : exec i s = .next t) (hs : s.phase ≠ .fin) (ht : t.phase = .fin) :
    ∃ r, s.phase = .blocks ∧ s.call = some r ∧ r.nf = true ∧ r.rem < 12 ∧ i = .tail r.rem := by
  cases i with
  | hashpair => exact absurd ht (issue_avoids_fin h hs)
  | hash => exact absurd ht (issue_avoids_fin h hs)
  | init => simp [execInit_leaves_blocks h] at ht
  | block => simp [execBlock_leaves_blocks h] at ht
  | tail n =>
    obtain ⟨r, hp, hr, hnf, hm, rfl⟩ := execTail_enters_fin h ht
    exact ⟨r, hp, hr, hnf, hm, rfl⟩
  | final => simp [execFinal_leaves_outp h] at ht
  | out => simp [execOut_leaves_resp h] at ht

/-- FIN lasts one step: FINAL leads to OUTP, reset to IDLE. -/
theorem step_leaves_fin (h : step s = .next t) (hs : s.phase = .fin) : t.phase ≠ .fin := by
  cases hrst : s.rst with
  | true =>
    rw [step_of_reset hrst] at h
    cases h
    simp
  | false =>
    rw [step_eq_execFinal hrst hs] at h
    simp [execFinal_leaves_outp h]

/-- A step into FIN is TAIL r with NF = 1 (R113): reset and the response handshake lead to IDLE, and a wait stays where
it is, which is not FIN. -/
theorem step_enters_fin (h : step s = .next t) (ht : t.phase = .fin) :
    s.phase = .blocks ∧ ∃ r, s.call = some r ∧ r.nf = true ∧ r.rem < 12 ∧ exec (.tail r.rem) s = .next t := by
  have hs : s.phase ≠ .fin := fun hs => step_leaves_fin h hs ht
  obtain ⟨-, rfl⟩ | ⟨-, -, rfl⟩ | ⟨-, -, hresp⟩ | ⟨_, _, -, -, -, hexec⟩ := step_next h
  · simp at ht
  · exact absurd ht hs
  · simp [respond_leaves_idle hresp] at ht
  · obtain ⟨r, hp, hr, hnf, hm, rfl⟩ := exec_enters_fin hexec hs ht
    exact ⟨hp, r, hr, hnf, hm, hexec⟩

/-- Settles O21: FINAL on live registers, the way into FIN, and the fixed point of the round. -/
theorem finalAppliesTheAvalanche : Obligations.FinalAppliesTheAvalanche := by
  refine ⟨fun s r hp hr => ?effect, fun s t => step_enters_fin, finalround_zero⟩
  case effect =>
    rw [exec_final, execFinal_of hp hr]
    rfl

end Sys2Proof.Machine
end

section
/-! The output pair (45_output.md R160): OUT's effect, and how phase OUTP is entered. Under the invariant a step is
known from its phase, so the ways into OUTP are found phase by phase. -/

namespace Sys2Proof.Machine

variable {s t : State}

@[simp] theorem exec_out (s : State) : exec .out s = execOut s := rfl

/-- OUT in OUTP on live registers. -/
theorem execOut_of {r : Call} (hp : s.phase = .outp) (hr : s.call = some r) :
    execOut s = .next ({ s with
      phase := .resp, call := none, result := some { pri := r.acc.c, sec := r.acc.b } }.pulse (uopCode 5 0) []) := by
  unfold execOut
  rw [whenIssued_of _ hp, withCall_of _ hr]

/-! ### What the invariant says in IDLE and in BLOCKS -/

/-- In BLOCKS the registers are live, and NF tells whether the remaining length has a rest (R24, R27, R33). -/
theorem call_of_inv_of_blocks (hi : s.inv = true) (hp : s.phase = .blocks) :
    ∃ r, s.call = some r ∧ r.nf = needFinal r.rem := by
  simp only [State.inv, hp, Bool.and_eq_true] at hi
  obtain ⟨⟨⟨⟨-, hphase⟩, -⟩, -⟩, -⟩ := hi
  cases hr : s.call with
  | none => simp [phaseInv, hr] at hphase
  | some r =>
    cases hres : s.result with
    | none =>
      simp only [hr, hres, phaseInv, Bool.and_eq_true, beq_iff_eq] at hphase
      obtain ⟨-, hnf⟩ := hphase
      exact ⟨r, rfl, hnf⟩
    | some => simp [phaseInv, hr, hres] at hphase

/-- In IDLE the port is empty or presents a command, because every waiting word fits it (R71). -/
theorem cmds_of_inv_of_idle (hi : s.inv = true) (hrst : s.rst = false) (hp : s.phase = .idle) :
    s.cmds = [] ∨ ∃ c, s.presents c := by
  cases hcmds : s.cmds with
  | nil => exact .inl rfl
  | cons w ws =>
    have hw : w < 2 ^ (64 + s.lenW) := by
      simp only [State.inv, hcmds, List.all_cons, Bool.and_eq_true, decide_eq_true_eq] at hi
      obtain ⟨⟨⟨-, hw, -⟩, -⟩, -⟩ := hi
      exact hw
    obtain ⟨c, hc⟩ := Option.isSome_iff_exists.mp (cmdFields_isSome_iff.mpr hw)
    refine .inr ⟨c, hrst, hp, cmdFields_len_lt hc, ?_⟩
    rw [hcmds, encodeCmd_of_cmdFields hc, List.head?_cons]

/-! ### How OUTP is entered -/

/-- From IDLE a step goes to BLOCKS or stays. -/
theorem step_idle_avoids_outp (hi : s.inv = true) (hrst : s.rst = false) (hp : s.phase = .idle)
    (h : step s = .next t) : t.phase ≠ .outp := by
  obtain hcmds | ⟨c, hc⟩ := cmds_of_inv_of_idle hi hrst hp
  · rw [step_of_wait hrst (nextAction_idle_of_nil hp hcmds)] at h
    cases h
    simp [hp]
  · rw [step_of_presents hc] at h
    cases h
    simp

/-- From RESP a step goes to IDLE or stays. -/
theorem step_resp_avoids_outp (hrst : s.rst = false) (hp : s.phase = .resp) (h : step s = .next t) :
    t.phase ≠ .outp := by
  have ha := nextAction_resp hp
  cases hready : s.rspReady with
  | true =>
    rw [step_of_rspack hrst (by rw [ha, hready, if_pos rfl])] at h
    simp [respond_leaves_idle h]
  | false =>
    rw [step_of_wait hrst (by rw [ha, hready]; rfl)] at h
    cases h
    simp [hp]

/-- TAIL leads to OUTP only where NF = 0 (R140). -/
theorem execTail_enters_outp {n : Nat} {r : Call} (h : execTail n s = .next t) (hr : s.call = some r)
    (ht : t.phase = .outp) : r.nf = false := by
  have hleaves := execTail_leaves h hr
  cases hnf : r.nf with
  | false => rfl
  | true =>
    rw [ht, hnf] at hleaves
    split at hleaves <;> cases hleaves

/-- NF = 0 and less than a block left leave nothing (R27). -/
theorem eq_zero_of_needFinal_eq_false {rem : Nat} (hm : rem < 12) (h : needFinal rem = false) : rem = 0 := by
  simpa [needFinal, Config.blockBytes, Nat.mod_eq_of_lt hm] using h

/-- From BLOCKS a step into OUTP is TAIL 0 with NF = 0: BLOCK stays in BLOCKS. -/
theorem step_blocks_enters_outp (hi : s.inv = true) (hrst : s.rst = false) (hp : s.phase = .blocks)
    (h : step s = .next t) (ht : t.phase = .outp) :
    (∃ r, s.call = some r ∧ r.nf = false ∧ r.rem = 0) ∧ exec (.tail 0) s = .next t := by
  obtain ⟨r, hr, hinv⟩ := call_of_inv_of_blocks hi hp
  by_cases hm : 12 ≤ r.rem
  · rw [step_eq_execBlock hrst hp hr hm] at h
    simp [execBlock_leaves_blocks h] at ht
  · have hlt : r.rem < 12 := Nat.lt_of_not_le hm
    rw [step_eq_execTail hrst hp hr hlt] at h
    have hnf : r.nf = false := execTail_enters_outp h hr ht
    have h0 : r.rem = 0 := eq_zero_of_needFinal_eq_false hlt (hinv ▸ hnf)
    exact ⟨⟨r, hr, hnf, h0⟩, h0 ▸ h⟩

/-- A step into OUTP is FINAL, or TAIL 0 with NF = 0 (R113, R160). -/
theorem step_enters_outp (hi : s.inv = true) (h : step s = .next t) (ht : t.phase = .outp) :
    (s.phase = .fin ∧ exec .final s = .next t) ∨
      (s.phase = .blocks ∧ (∃ r, s.call = some r ∧ r.nf = false ∧ r.rem = 0) ∧ exec (.tail 0) s = .next t) := by
  cases hrst : s.rst with
  | true =>
    rw [step_of_reset hrst] at h
    cases h
    simp at ht
  | false =>
    cases hp : s.phase with
    | idle => exact absurd ht (step_idle_avoids_outp hi hrst hp h)
    | blocks => exact .inr ⟨rfl, step_blocks_enters_outp hi hrst hp h ht⟩
    | fin => exact .inl ⟨rfl, (step_eq_execFinal hrst hp).symm.trans h⟩
    | outp =>
      rw [step_eq_execOut hrst hp] at h
      simp [execOut_leaves_resp h] at ht
    | resp => exact absurd ht (step_resp_avoids_outp hrst hp h)

/-- Settles O22: OUT on live registers, and the two ways into OUTP. -/
theorem outAssemblesThePair : Obligations.OutAssemblesThePair := by
  refine ⟨fun s r hp hr => ?effect, fun s t => step_enters_outp⟩
  case effect =>
    rw [exec_out, execOut_of hp hr]
    rfl

end Sys2Proof.Machine
end

section
/-! The empty message (45_output.md R164): INIT, TAIL 0, OUT. TAIL 0 adds nothing and FINAL is skipped, so the pair is
taken from the accumulators that INIT created. -/

namespace Sys2Proof.Machine

variable {s : State} {seed1 seed2 : Word}

/-- Every memory answers the empty message: it has no byte to answer. -/
theorem State.answers_nil (s : State) : s.answers [] := fun _ hi => absurd hi (Nat.not_lt_zero _)

/-- The pair of the empty message. -/
theorem hashPair_nil (seed1 seed2 : Word) :
    hashPair [] seed1 seed2 = { pri := 0xdeadbeef#32 + seed1 + seed2, sec := 0xdeadbeef#32 + seed1 } := by
  simp [hashPair, afterTail, afterBlocks, sliceOf]

/-- TAIL 0 adds nothing. -/
@[simp] theorem tailFold_zero (acc : Acc) (xs : List Byte) : tailFold acc 0 xs = acc := by
  simp [tailFold]

/-- The accumulators INIT creates for the empty message: the length adds nothing to them (R111). -/
theorem initAcc_of_len_zero (seed1 seed2 : Word) :
    initAcc ⟨seed1, seed2, 0⟩ =
      ⟨0xdeadbeef#32 + seed1, 0xdeadbeef#32 + seed1, 0xdeadbeef#32 + seed1 + seed2⟩ := by
  simp [initAcc, initConst, len32]

/-- Three steps from the presented command the response port shows the pair. -/
theorem stepN_of_presents_empty (hp : s.presents ⟨seed1, seed2, 0⟩) :
    ∃ t, stepN 3 s = .next t ∧
      t.rspPort = some { pri := 0xdeadbeef#32 + seed1 + seed2, sec := 0xdeadbeef#32 + seed1 } := by
  have hread : (s.accept ⟨seed1, seed2, 0⟩).Reading [] (initCall ⟨seed1, seed2, 0⟩) :=
    reading_accept hp rfl s.answers_nil
  have hrun : stepN 3 s = .next _ := calc
    stepN 3 s = stepN 2 (s.accept ⟨seed1, seed2, 0⟩) := stepN_succ (step_of_presents hp)
    _ = stepN 1 ((s.accept ⟨seed1, seed2, 0⟩).tailDone (initCall ⟨seed1, seed2, 0⟩) []) :=
      stepN_succ (hread.step_tail (by simp))
    _ = .next _ := stepN_succ (k := 0) (step_of_outp hread.rst rfl rfl)
  refine ⟨_, hrun, ?_⟩
  simp [State.rspPort, State.rspValid, Call.tailDone, initAcc_of_len_zero]

/-- Settles O56: the function on the empty list, then the call's trace and reads at length 0, then its three steps. -/
theorem emptyMessageFixture : Obligations.EmptyMessageFixture := by
  refine ⟨hashPair_nil 0#32 0#32, fun seed1 seed2 => ⟨hashPair_nil seed1 seed2, fun s hp => ⟨?trace, ?reads, ?run⟩⟩⟩
  case trace => simpa [uopCount] using callTraceIsAFunctionOfTheLength s _ [] hp rfl s.answers_nil
  case reads => simpa [uopCount] using callReadsEveryByteOnceAscending s _ [] hp rfl s.answers_nil
  case run => exact stepN_of_presents_empty hp

end Sys2Proof.Machine
end

section
/-! Reset (70_reset_and_hazards.md R190, R191): in IDLE the phase alone fixes every control output and both ports, so
all that reset adds is that the registers die and the inputs stay. -/

namespace Sys2Proof.Machine

variable {s : State}

/-- The message port requests nothing outside BLOCKS (R63). -/
theorem msgPort_eq_none_of_ne_blocks (hp : s.phase ≠ .blocks) : s.msgPort = none :=
  Option.eq_none_iff_forall_ne_some.mpr fun _ ho => hp (msgPort_eq_some_iff.mp ho).1

/-- The response port shows nothing outside RESP (R28, R29). -/
theorem rspPort_eq_none_of_ne_resp (hp : s.phase ≠ .resp) : s.rspPort = none := by
  simp [State.rspPort, State.rspValid, hp]

/-- The control outputs in IDLE (R26), and no value on the data outputs they qualify. -/
theorem ports_of_idle (hp : s.phase = .idle) :
    s.cmdReady = true ∧ s.busy = false ∧ s.rspValid = false ∧ s.rspPort = none ∧ s.msgPort = none :=
  ⟨by simp [State.cmdReady, hp], by simp [State.busy, hp], by simp [State.rspValid, hp],
    rspPort_eq_none_of_ne_resp (by simp [hp]), msgPort_eq_none_of_ne_blocks (by simp [hp])⟩

/-- Settles O30: whatever the phase, the step is the cycle of reset, which leaves IDLE and no input changed. -/
theorem resetWinsOverEverything : Obligations.ResetWinsOverEverything := by
  intro s hrst
  obtain ⟨hcmd, hbusy, hvalid, hrsp, hmsg⟩ := ports_of_idle s.applyReset_phase
  exact ⟨s.applyReset, step_of_reset hrst, s.applyReset_phase, s.applyReset_call, s.applyReset_result,
    s.applyReset_trc, s.applyReset_reads, hcmd, hbusy, hvalid, hrsp, hmsg, s.applyReset_cmds, s.applyReset_mem,
    s.applyReset_lenW, s.applyReset_rst, s.applyReset_rspReady⟩

/-- Settles O31: the reset state is idle, so its ports are those of IDLE; its registers are dead as defined. -/
theorem resetStateIsIdleAndDead : Obligations.ResetStateIsIdleAndDead := by
  obtain ⟨hcmd, hbusy, hvalid, hrsp, hmsg⟩ := ports_of_idle (s := State.reset) rfl
  exact ⟨rfl, rfl, rfl, hcmd, hbusy, hvalid, hrsp, hmsg, rfl⟩

end Sys2Proof.Machine
end

section
/-! What a step can do, said once: the relation `Transition` lists the rows of R113 with reset and the held read, and it
is exactly what `step` answers. -/

namespace Sys2Proof.Machine

variable {s t t' : State}

/-! ### The next states -/

/-- The state after BLOCK on these bytes (R130). -/
def State.mixed (s : State) (r : Call) (xs : List Byte) : State :=
  { s with call := some { r with acc := mixBytes r.acc xs, off := r.off + 12, rem := r.rem - 12 } }.pulse (uopCode 2 0)
    (readOffsets r.off 12)

/-- The state after TAIL on these bytes (R140). -/
def State.folded (s : State) (r : Call) (xs : List Byte) : State :=
  { s with
    phase := tailPhase r.nf
    call := some { r with acc := tailFold r.acc r.rem xs, off := r.off + r.rem, rem := 0 } }.pulse (uopCode 3 r.rem)
      (readOffsets r.off r.rem)

/-- The state after FINAL (R150). -/
def State.avalanched (s : State) (r : Call) : State :=
  { s with phase := .outp, call := some { r with acc := finalround r.acc } }.pulse (uopCode 4 0) []

/-- The state after OUT (R160). -/
def State.paired (s : State) (r : Call) : State :=
  { s with phase := .resp, call := none, result := some r.acc.pair }.pulse (uopCode 5 0) []

/-- The state after the response handshake (R161). -/
def State.taken (s : State) : State :=
  { s with phase := .idle, result := none }.quiet

section Fields

variable (s : State) (r : Call) (xs : List Byte)

@[simp] theorem State.mixed_phase : (s.mixed r xs).phase = s.phase := rfl
@[simp] theorem State.mixed_trc : (s.mixed r xs).trc = some (uopCode 2 0) := rfl
@[simp] theorem State.mixed_call :
    (s.mixed r xs).call = some { r with acc := mixBytes r.acc xs, off := r.off + 12, rem := r.rem - 12 } := rfl
@[simp] theorem State.mixed_reads : (s.mixed r xs).reads = readOffsets r.off 12 := rfl
@[simp] theorem State.folded_phase : (s.folded r xs).phase = tailPhase r.nf := rfl
@[simp] theorem State.folded_trc : (s.folded r xs).trc = some (uopCode 3 r.rem) := rfl
@[simp] theorem State.folded_reads : (s.folded r xs).reads = readOffsets r.off r.rem := rfl
@[simp] theorem State.folded_call :
    (s.folded r xs).call = some { r with acc := tailFold r.acc r.rem xs, off := r.off + r.rem, rem := 0 } := rfl
@[simp] theorem State.avalanched_phase : (s.avalanched r).phase = .outp := rfl
@[simp] theorem State.avalanched_trc : (s.avalanched r).trc = some (uopCode 4 0) := rfl
@[simp] theorem State.avalanched_call : (s.avalanched r).call = some { r with acc := finalround r.acc } := rfl
@[simp] theorem State.paired_phase : (s.paired r).phase = .resp := rfl
@[simp] theorem State.paired_call : (s.paired r).call = none := rfl
@[simp] theorem State.paired_trc : (s.paired r).trc = some (uopCode 5 0) := rfl
@[simp] theorem State.paired_result : (s.paired r).result = some r.acc.pair := rfl
@[simp] theorem State.taken_phase : s.taken.phase = .idle := rfl
@[simp] theorem State.taken_call : s.taken.call = s.call := rfl
@[simp] theorem State.taken_trc : s.taken.trc = none := rfl
@[simp] theorem State.taken_result : s.taken.result = none := rfl

end Fields

/-- The steps of the engine that answer a next state: a cycle of reset, a wait, a read that is held, the acceptance of a
command, a micro-operation done, the response handshake (R113, R183, R190). -/
inductive Transition (s : State) : State → Prop where
  | reset : s.rst = true → Transition s s.applyReset
  | noCommand : s.rst = false → s.phase = .idle → s.cmds = [] → Transition s s.quiet
  | accept (c : Command) : s.presents c → Transition s (s.accept c)
  | held (r : Call) (o : Nat) : s.rst = false → s.phase = .blocks → s.call = some r →
      s.readMsg r.off (dueBytes r.rem) = .error (.unanswered o) → Transition s s.quiet
  | block (r : Call) (xs : List Byte) : s.rst = false → s.phase = .blocks → s.call = some r → 12 ≤ r.rem →
      s.readMsg r.off 12 = .ok xs → Transition s (s.mixed r xs)
  | tail (r : Call) (xs : List Byte) : s.rst = false → s.phase = .blocks → s.call = some r → r.rem < 12 →
      s.readMsg r.off r.rem = .ok xs → Transition s (s.folded r xs)
  | final (r : Call) : s.rst = false → s.phase = .fin → s.call = some r → Transition s (s.avalanched r)
  | out (r : Call) : s.rst = false → s.phase = .outp → s.call = some r → Transition s (s.paired r)
  | notTaken : s.rst = false → s.phase = .resp → s.rspReady = false → Transition s s.quiet
  | rspack (p : Result) : s.rst = false → s.phase = .resp → s.rspReady = true → s.result = some p →
      Transition s s.taken

/-! ### What the step answers in each phase -/

theorem dueBytes_of_block {rem : Nat} (h : 12 ≤ rem) : dueBytes rem = 12 := if_pos h

theorem dueBytes_of_tail {rem : Nat} (h : rem < 12) : dueBytes rem = rem := if_neg (Nat.not_le.mpr h)

theorem phase_of_presents {c : Command} (h : s.presents c) : s.phase = .idle := by
  obtain ⟨-, hp, -⟩ := h
  exact hp

/-- Where the word at the port decodes, the port presents the command of its fields. -/
theorem presents_of_decode {w : Nat} {ws : List Nat} {i : Instr} (hrst : s.rst = false) (hp : s.phase = .idle)
    (hc : s.cmds = w :: ws) (hd : decode s.lenW (.cmd w) = .ok i) : ∃ c, s.presents c := by
  obtain ⟨c, hf, -⟩ := decodeCmd_ok hd
  exact ⟨c, hrst, hp, cmdFields_len_lt hf, by rw [hc, List.head?_cons, encodeCmd_of_cmdFields hf]⟩

/-- In BLOCKS the sequencer reads `rem`, and a dead one is a fault (R24, U1). -/
theorem step_of_blocks_dead (hrst : s.rst = false) (hp : s.phase = .blocks) (hr : s.call = none) :
    step s = .fault .deadRead := by
  simp [step, State.nextAction, hrst, hp, hr]

/-- A read that is not answered holds whichever micro-operation is due (R183). -/
theorem step_of_held {r : Call} {o : Nat} (hrst : s.rst = false) (hp : s.phase = .blocks) (hr : s.call = some r)
    (ho : s.readMsg r.off (dueBytes r.rem) = .error (.unanswered o)) : step s = .next s.quiet := by
  by_cases hm : 12 ≤ r.rem
  · rw [dueBytes_of_block hm] at ho
    rw [step_eq_execBlock hrst hp hr hm, execBlock_held hp hr hm ho]
  · have hm := Nat.lt_of_not_le hm
    rw [dueBytes_of_tail hm] at ho
    rw [step_eq_execTail hrst hp hr hm, execTail_held hp hr hm ho]

theorem respond_of {p : Result} (hp : s.phase = .resp) (hready : s.rspReady = true) (hr : s.result = some p) :
    s.respond = .next s.taken := by
  unfold State.respond
  rw [whenIssued_of _ ⟨hp, hready⟩, withResult_of _ hr]
  rfl

theorem transition_of_idle (hrst : s.rst = false) (hp : s.phase = .idle) (h : step s = .next t) : Transition s t := by
  cases hc : s.cmds with
  | nil =>
    rw [step_of_wait hrst (nextAction_idle_of_nil hp hc)] at h
    cases h
    exact .noCommand hrst hp hc
  | cons w ws =>
    have ha : s.nextAction = .ok (.run (.cmd w)) := by simp [State.nextAction, hp, hc]
    obtain ⟨hr, -⟩ | ⟨-, hw, -⟩ | ⟨-, hw, -⟩ | ⟨v, i, -, hw, hd, -⟩ := step_next h
    · simp [hrst] at hr
    · simp [ha] at hw
    · simp [ha] at hw
    · cases ha.symm.trans hw
      obtain ⟨c, hpres⟩ := presents_of_decode hrst hp hc hd
      rw [step_of_presents hpres] at h
      cases h
      exact .accept c hpres

theorem transition_of_blocks (hrst : s.rst = false) (hp : s.phase = .blocks) (h : step s = .next t) :
    Transition s t := by
  cases hr : s.call with
  | none => simp [step_of_blocks_dead hrst hp hr] at h
  | some r =>
    by_cases hm : 12 ≤ r.rem
    · rw [step_eq_execBlock hrst hp hr hm] at h
      obtain ⟨_, -, hr', -, ⟨xs, hx, rfl⟩ | ⟨o, ho, rfl⟩⟩ := execBlock_next h <;> cases hr.symm.trans hr'
      · exact .block r xs hrst hp hr hm hx
      · exact .held r o hrst hp hr (by rw [dueBytes_of_block hm, ho])
    · have hm := Nat.lt_of_not_le hm
      rw [step_eq_execTail hrst hp hr hm] at h
      obtain ⟨_, -, hr', -, -, ⟨xs, hx, rfl⟩ | ⟨o, ho, rfl⟩⟩ := execTail_next h <;> cases hr.symm.trans hr'
      · exact .tail r xs hrst hp hr hm hx
      · exact .held r o hrst hp hr (by rw [dueBytes_of_tail hm, ho])

theorem transition_of_resp (hrst : s.rst = false) (hp : s.phase = .resp) (h : step s = .next t) : Transition s t := by
  have ha := nextAction_resp hp
  cases hready : s.rspReady with
  | true =>
    rw [step_of_rspack hrst (by rw [ha, hready, if_pos rfl])] at h
    obtain ⟨p, -, -, hr, rfl⟩ := respond_next h
    exact .rspack p hrst hp hready hr
  | false =>
    rw [step_of_wait hrst (by rw [ha, hready]; rfl)] at h
    cases h
    exact .notTaken hrst hp hready

/-- A step that answers a next state is one of the transitions. -/
theorem transition_of_step (h : step s = .next t) : Transition s t := by
  cases hrst : s.rst with
  | true =>
    rw [step_of_reset hrst] at h
    cases h
    exact .reset hrst
  | false =>
    cases hp : s.phase with
    | idle => exact transition_of_idle hrst hp h
    | blocks => exact transition_of_blocks hrst hp h
    | fin =>
      rw [step_eq_execFinal hrst hp] at h
      obtain ⟨r, -, hr, rfl⟩ := execFinal_next h
      exact .final r hrst hp hr
    | outp =>
      rw [step_eq_execOut hrst hp] at h
      obtain ⟨r, -, hr, rfl⟩ := execOut_next h
      exact .out r hrst hp hr
    | resp => exact transition_of_resp hrst hp h

/-- Each of the transitions is a step. -/
theorem step_of_transition (h : Transition s t) : step s = .next t := by
  cases h with
  | reset hrst => exact step_of_reset hrst
  | noCommand hrst hp hc => exact step_of_wait hrst (nextAction_idle_of_nil hp hc)
  | accept c hc => exact step_of_presents hc
  | held r o hrst hp hr ho => exact step_of_held hrst hp hr ho
  | block r xs hrst hp hr hm hx => exact (step_eq_execBlock hrst hp hr hm).trans (execBlock_of hp hr hm hx)
  | tail r xs hrst hp hr hm hx => exact (step_eq_execTail hrst hp hr hm).trans (execTail_of hp hr hm hx)
  | final r hrst hp hr => exact step_of_fin hrst hp hr
  | out r hrst hp hr => exact step_of_outp hrst hp hr
  | notTaken hrst hp hready => exact step_of_wait hrst (by rw [nextAction_resp hp, hready]; rfl)
  | rspack p hrst hp hready hr =>
    rw [step_of_rspack hrst (by rw [nextAction_resp hp, hready, if_pos rfl]), respond_of hp hready hr]

/-- The step is a function of the state. -/
theorem Transition.unique (h : Transition s t) (h' : Transition s t') : t = t' := by
  cases (step_of_transition h).symm.trans (step_of_transition h')
  rfl

end Sys2Proof.Machine
end

section
/-! The invariant (10_state.md R33): what it says in each phase, and that every step and every move of the host keeps
it. The trace port carries only codes of R73 whatever the state before. -/

namespace Sys2Proof.Machine

variable {s t : State} {lenW : Nat} {call : Option Call} {result : Option Result}

/-! ### The registers of each phase -/

@[simp] theorem phaseInv_idle_iff : phaseInv lenW .idle call result = true ↔ call = none ∧ result = none := by
  cases call <;> cases result <;> simp [phaseInv]

theorem needFinal_eq_not (len : Nat) : needFinal len = !decide (len % 12 = 0) := decide_not

@[simp] theorem phaseInv_blocks_iff :
    phaseInv lenW .blocks call result = true ↔
      ∃ r, call = some r ∧ result = none ∧ r.off % 12 = 0 ∧ r.off + r.rem < 2 ^ lenW ∧ r.nf = needFinal r.rem := by
  cases call <;> cases result <;> simp [phaseInv, needFinal_eq_not, and_assoc]

@[simp] theorem phaseInv_fin_iff :
    phaseInv lenW .fin call result = true ↔
      ∃ r, call = some r ∧ result = none ∧ r.rem = 0 ∧ r.off < 2 ^ lenW ∧ r.nf = true ∧ r.off % 12 ≠ 0 := by
  cases call <;> cases result <;> simp [phaseInv, and_assoc]

@[simp] theorem phaseInv_outp_iff :
    phaseInv lenW .outp call result = true ↔
      ∃ r, call = some r ∧ result = none ∧ r.rem = 0 ∧ r.off < 2 ^ lenW ∧ r.nf = needFinal r.off := by
  cases call <;> cases result <;> simp [phaseInv, needFinal_eq_not, and_assoc]

@[simp] theorem phaseInv_resp_iff :
    phaseInv lenW .resp call result = true ↔ call = none ∧ ∃ p, result = some p := by
  cases call <;> cases result <;> simp [phaseInv]

/-! ### The invariant as propositions -/

/-- The invariant, clause by clause. -/
structure State.Inv (s : State) : Prop where
  lenW : 1 ≤ s.lenW
  regs : phaseInv s.lenW s.phase s.call s.result = true
  cmds : ∀ w ∈ s.cmds, w < 2 ^ (64 + s.lenW)
  mem : s.mem.wf s.lenW = true
  trc : ∀ code, s.trc = some code → isUopCode code = true

theorem inv_iff : s.inv = true ↔ s.Inv := by
  simp only [State.inv, Bool.and_eq_true, decide_eq_true_eq, List.all_eq_true, Option.all_eq_true]
  constructor
  · rintro ⟨⟨⟨⟨hlenW, hregs⟩, hcmds⟩, hmem⟩, htrc⟩
    exact ⟨hlenW, hregs, hcmds, hmem, htrc⟩
  · rintro ⟨hlenW, hregs, hcmds, hmem, htrc⟩
    exact ⟨⟨⟨⟨hlenW, hregs⟩, hcmds⟩, hmem⟩, htrc⟩

theorem State.Inv.regs_of_phase {p : Phase} (h : s.Inv) (hp : s.phase = p) :
    phaseInv s.lenW p s.call s.result = true := hp ▸ h.regs

/-- In BLOCKS with live registers: off is a multiple of 12, the length fits, and NF says whether it has a rest. -/
theorem State.Inv.of_blocks {r : Call} (h : s.Inv) (hp : s.phase = .blocks) (hr : s.call = some r) :
    s.result = none ∧ r.off % 12 = 0 ∧ r.off + r.rem < 2 ^ s.lenW ∧ r.nf = needFinal r.rem := by
  simpa [hr] using h.regs_of_phase hp

theorem State.Inv.of_fin {r : Call} (h : s.Inv) (hp : s.phase = .fin) (hr : s.call = some r) :
    s.result = none ∧ r.rem = 0 ∧ r.off < 2 ^ s.lenW ∧ r.nf = true ∧ r.off % 12 ≠ 0 := by
  simpa [hr] using h.regs_of_phase hp

/-! ### The trace port -/

theorem isUopCode_of_decode {code : UopCode} {i : Instr} (h : decodeUop code = .ok i) : isUopCode code = true := by
  simp [isUopCode, h]

theorem isUopCode_uopCode_tail {r : Nat} (h : r < 12) : isUopCode (uopCode 3 r) = true :=
  isUopCode_of_decode (decodeUop_tail (by omega))

/-- Every pulse is the code of its micro-operation; the other steps pulse none. -/
theorem Transition.isUopCode_trc {code : UopCode} (h : Transition s t) (hc : t.trc = some code) :
    isUopCode code = true := by
  cases h with
  | reset => simp at hc
  | noCommand => simp at hc
  | accept => cases hc; rfl
  | held => simp at hc
  | block => cases hc; rfl
  | tail r xs _ _ _ hm => cases hc; exact isUopCode_uopCode_tail hm
  | final => cases hc; rfl
  | out => cases hc; rfl
  | notTaken => simp at hc
  | rspack => simp at hc

/-- The sequencer issues only codes that decode (R76). -/
theorem isUopCode_of_nextAction {code : UopCode} (h : s.nextAction = .ok (.run (.uop code))) :
    isUopCode code = true := by
  unfold State.nextAction at h
  split at h
  · split at h <;> simp at h
  · split at h
    · simp at h
    · next r _ =>
      cases h
      by_cases hm : 12 ≤ r.rem
      · rw [if_pos hm]; rfl
      · rw [if_neg hm]; exact isUopCode_uopCode_tail (Nat.lt_of_not_le hm)
  · cases h; rfl
  · cases h; rfl
  · split at h <;> simp at h

/-- Settles O5: 240 codes counted, the sequencer's choice, and the pulse of each transition. -/
theorem otherCodesAreNeverGenerated : Obligations.OtherCodesAreNeverGenerated :=
  ⟨by decide +kernel, fun _ _ => isUopCode_of_nextAction, fun _ _ _ h => (transition_of_step h).isUopCode_trc⟩

/-! ### Every step keeps the invariant -/

/-- The remaining length keeps its rest while whole blocks are consumed (R27). -/
theorem needFinal_sub_block {rem : Nat} (h : 12 ≤ rem) : needFinal (rem - 12) = needFinal rem := by
  rw [needFinal, needFinal, Config.blockBytes, ← Nat.mod_eq_sub_mod h]

/-- The length of the whole call has the rest that is left behind whole blocks (R33). -/
theorem needFinal_add_of_mod {off rem : Nat} (h : off % 12 = 0) : needFinal (off + rem) = needFinal rem := by
  rw [needFinal, needFinal, Config.blockBytes, Nat.add_mod, h, Nat.zero_add, Nat.mod_mod]

/-- No step writes the message memory, the configuration or an input pin. -/
theorem Transition.frame (h : Transition s t) :
    t.mem = s.mem ∧ t.lenW = s.lenW ∧ t.rst = s.rst ∧ t.rspReady = s.rspReady := by
  cases h <;> exact ⟨rfl, rfl, rfl, rfl⟩

/-- The registers fit the phase that the step leaves. -/
theorem Transition.phaseInv_regs (h : Transition s t) (hi : s.Inv) :
    phaseInv t.lenW t.phase t.call t.result = true := by
  obtain ⟨-, hlenW, -⟩ := h.frame
  rw [hlenW]
  cases h with
  | reset => simp
  | noCommand => exact hi.regs
  | accept c hc =>
    obtain ⟨-, hp, hlen, -⟩ := hc
    obtain ⟨-, hres⟩ := phaseInv_idle_iff.mp (hi.regs_of_phase hp)
    simp [hres, hlen]
  | held => exact hi.regs
  | block r xs _ hp hr hm =>
    obtain ⟨hres, hoff, hfit, hnf⟩ := hi.of_blocks hp hr
    rw [State.mixed_phase, hp, phaseInv_blocks_iff]
    exact ⟨_, rfl, hres, by simp [hoff], by simp; omega, hnf.trans (needFinal_sub_block hm).symm⟩
  | tail r xs _ hp hr hm =>
    obtain ⟨hres, hoff, hfit, hnf⟩ := hi.of_blocks hp hr
    have hnf' : r.nf = needFinal (r.off + r.rem) := hnf.trans (needFinal_add_of_mod hoff).symm
    cases hb : r.nf with
    | true =>
      rw [State.folded_phase, hb, tailPhase, if_pos rfl, phaseInv_fin_iff]
      exact ⟨_, rfl, hres, rfl, hfit, hb, of_decide_eq_true (hnf'.symm.trans hb)⟩
    | false =>
      rw [State.folded_phase, hb, tailPhase, if_neg Bool.false_ne_true, phaseInv_outp_iff]
      exact ⟨_, rfl, hres, rfl, hfit, hnf'⟩
  | final r _ hp hr =>
    obtain ⟨hres, hrem, hoff, hnf, hmod⟩ := hi.of_fin hp hr
    rw [State.avalanched_phase, phaseInv_outp_iff]
    exact ⟨_, rfl, hres, hrem, hoff, hnf.trans (decide_eq_true hmod).symm⟩
  | out => simp
  | notTaken => exact hi.regs
  | rspack p _ hp =>
    obtain ⟨hcall, -⟩ := phaseInv_resp_iff.mp (hi.regs_of_phase hp)
    simp [hcall]

/-- A step hands over the oldest command in the acceptance, and none otherwise. -/
theorem Transition.cmds_eq (h : Transition s t) :
    t.cmds = s.cmds ∨ ∃ c, s.presents c ∧ t.cmds = takeCommand s.lenW c s.cmds := by
  cases h with
  | accept c hc => exact .inr ⟨c, hc, rfl⟩
  | _ => exact .inl rfl

theorem Transition.mem_cmds (h : Transition s t) {w : Nat} (hw : w ∈ t.cmds) : w ∈ s.cmds := by
  obtain hc | ⟨c, -, hc⟩ := h.cmds_eq
  · exact hc ▸ hw
  · exact mem_takeCommand (hc ▸ hw)

theorem Transition.inv (h : Transition s t) (hi : s.Inv) : t.Inv := by
  obtain ⟨hmem, hlenW, -, -⟩ := h.frame
  exact {
    lenW := hlenW ▸ hi.lenW
    regs := h.phaseInv_regs hi
    cmds := fun w hw => hlenW ▸ hi.cmds w (h.mem_cmds hw)
    mem := by rw [hmem, hlenW]; exact hi.mem
    trc := fun _ => h.isUopCode_trc }

/-- Settles O33, transition by transition. -/
theorem stepKeepsTheInvariant : Obligations.StepKeepsTheInvariant := fun _ _ hi h =>
  inv_iff.mpr ((transition_of_step h).inv (inv_iff.mp hi))

/-! ### The host, and every history from reset -/

/-- Settles O34: every register is dead, no command waits, no byte is listed. -/
theorem resetMeetsTheInvariant : Obligations.ResetMeetsTheInvariant := fun _ hlenW =>
  inv_iff.mpr {
    lenW := hlenW
    regs := rfl
    cmds := fun _ hw => absurd hw List.not_mem_nil
    mem := rfl
    trc := fun _ hc => nomatch hc }

/-- A move drives inputs alone: phase, registers and what the last step drove stay. -/
theorem HostMove.frame (h : HostMove) (s : State) :
    (h.apply s).phase = s.phase ∧ (h.apply s).call = s.call ∧ (h.apply s).result = s.result ∧
      (h.apply s).lenW = s.lenW ∧ (h.apply s).trc = s.trc := by
  cases h with
  | present w => simp only [apply]; split <;> exact ⟨rfl, rfl, rfl, rfl, rfl⟩
  | place o v => simp only [apply]; split <;> exact ⟨rfl, rfl, rfl, rfl, rfl⟩
  | withdraw o => exact ⟨rfl, rfl, rfl, rfl, rfl⟩
  | ready v => exact ⟨rfl, rfl, rfl, rfl, rfl⟩
  | reset v => exact ⟨rfl, rfl, rfl, rfl, rfl⟩

/-- A move leaves the waiting commands or adds one that fits the port. -/
theorem HostMove.cmds_cases (h : HostMove) (s : State) :
    (h.apply s).cmds = s.cmds ∨ ∃ w, w < 2 ^ (64 + s.lenW) ∧ (h.apply s).cmds = s.cmds ++ [w] := by
  cases h with
  | present w =>
    simp only [apply]
    split
    · exact .inr ⟨w, ‹_›, rfl⟩
    · exact .inl rfl
  | place o v => simp only [apply]; split <;> exact .inl rfl
  | withdraw o => exact .inl rfl
  | ready v => exact .inl rfl
  | reset v => exact .inl rfl

/-- A move leaves the message memory, or writes one offset of the message space, or erases one. -/
theorem HostMove.mem_cases (h : HostMove) (s : State) :
    (h.apply s).mem = s.mem ∨
      (∃ o v, h = .place o v ∧ o < 2 ^ s.lenW ∧ (h.apply s).mem = s.mem.write o v) ∨
      ∃ o, h = .withdraw o ∧ (h.apply s).mem = s.mem.erase o := by
  cases h with
  | present w => simp only [apply]; split <;> exact .inl rfl
  | place o v =>
    simp only [apply]
    split
    · exact .inr (.inl ⟨o, v, rfl, ‹_›, rfl⟩)
    · exact .inl rfl
  | withdraw o => exact .inr (.inr ⟨o, rfl, rfl⟩)
  | ready v => exact .inl rfl
  | reset v => exact .inl rfl

theorem HostMove.lt_of_mem_cmds (h : HostMove) {w : Nat} (hs : ∀ v ∈ s.cmds, v < 2 ^ (64 + s.lenW))
    (hw : w ∈ (h.apply s).cmds) : w < 2 ^ (64 + s.lenW) := by
  obtain hc | ⟨v, hv, hc⟩ := h.cmds_cases s <;> rw [hc] at hw
  · exact hs w hw
  · obtain hw | hw := List.mem_append.mp hw
    · exact hs w hw
    · exact List.mem_singleton.mp hw ▸ hv

theorem HostMove.wf_mem (h : HostMove) (hs : s.mem.wf s.lenW = true) : (h.apply s).mem.wf s.lenW = true := by
  obtain hm | ⟨o, v, -, ho, hm⟩ | ⟨o, -, hm⟩ := h.mem_cases s <;> rw [hm]
  · exact hs
  · exact Memory.wf_write v hs ho
  · exact Memory.wf_erase o hs

theorem HostMove.inv (h : HostMove) (hi : s.Inv) : (h.apply s).Inv := by
  obtain ⟨hphase, hcall, hresult, hlenW, htrc⟩ := h.frame s
  exact {
    lenW := hlenW ▸ hi.lenW
    regs := by rw [hlenW, hphase, hcall, hresult]; exact hi.regs
    cmds := fun w hw => hlenW ▸ h.lt_of_mem_cmds hi.cmds hw
    mem := hlenW ▸ h.wf_mem hi.mem
    trc := htrc ▸ hi.trc }

/-- Settles O35: a move drives one input, and what it drives fits. -/
theorem hostMovesKeepTheInvariant : Obligations.HostMovesKeepTheInvariant := fun h _ hi =>
  inv_iff.mpr (h.inv (inv_iff.mp hi))

/-! ### No step stops -/

/-- Reads inside the message space give their bytes or show an unanswered offset. -/
theorem readMsg_answered_or_unanswered {o n : Nat} (hs : o + n ≤ 2 ^ s.lenW) :
    (∃ xs, s.readMsg o n = .ok xs) ∨ ∃ p, s.readMsg o n = .error (.unanswered p) := by
  cases h : s.readMsg o n with
  | ok xs => exact .inl ⟨xs, rfl⟩
  | error e =>
    cases e with
    | unanswered p => exact .inr ⟨p, rfl⟩
    | outside p => exact absurd h (readMsg_not_outside hs)

/-- In BLOCKS the due reads lie inside the message space, so BLOCK or TAIL completes or is held. -/
theorem exists_transition_of_blocks (hi : s.Inv) (hrst : s.rst = false) (hp : s.phase = .blocks) :
    ∃ t, Transition s t := by
  obtain ⟨r, hr, -, -, hfit, -⟩ := phaseInv_blocks_iff.mp (hi.regs_of_phase hp)
  have hdue := (dueBytes_le r.rem).1
  obtain ⟨xs, hx⟩ | ⟨o, ho⟩ := readMsg_answered_or_unanswered (s := s) (o := r.off) (n := dueBytes r.rem) (by omega)
  · by_cases hm : 12 ≤ r.rem
    · exact ⟨_, .block r xs hrst hp hr hm (dueBytes_of_block hm ▸ hx)⟩
    · have hm := Nat.lt_of_not_le hm
      exact ⟨_, .tail r xs hrst hp hr hm (by rw [dueBytes_of_tail hm] at hx; exact hx)⟩
  · exact ⟨_, .held r o hrst hp hr ho⟩

theorem State.Inv.exists_transition (hi : s.Inv) : ∃ t, Transition s t := by
  cases hrst : s.rst with
  | true => exact ⟨_, .reset hrst⟩
  | false =>
    cases hp : s.phase with
    | idle =>
      obtain hc | ⟨c, hc⟩ := cmds_of_inv_of_idle (inv_iff.mpr hi) hrst hp
      · exact ⟨_, .noCommand hrst hp hc⟩
      · exact ⟨_, .accept c hc⟩
    | blocks => exact exists_transition_of_blocks hi hrst hp
    | fin =>
      obtain ⟨r, hr, -⟩ := phaseInv_fin_iff.mp (hi.regs_of_phase hp)
      exact ⟨_, .final r hrst hp hr⟩
    | outp =>
      obtain ⟨r, hr, -⟩ := phaseInv_outp_iff.mp (hi.regs_of_phase hp)
      exact ⟨_, .out r hrst hp hr⟩
    | resp =>
      obtain ⟨-, p, hr⟩ := phaseInv_resp_iff.mp (hi.regs_of_phase hp)
      cases hready : s.rspReady with
      | true => exact ⟨_, .rspack p hrst hp hready hr⟩
      | false => exact ⟨_, .notTaken hrst hp hready⟩

/-- Settles O36: in every phase the invariant gives what the step reads. -/
theorem everyStepReturnsANextState : Obligations.EveryStepReturnsANextState := fun _ hi =>
  (inv_iff.mp hi).exists_transition.imp fun _ => step_of_transition

theorem Reachable.inv (h : Reachable s) : s.inv = true := by
  induction h with
  | reset lenW hlenW => exact resetMeetsTheInvariant lenW hlenW
  | engine s t _ hstep ih => exact stepKeepsTheInvariant s t ih hstep
  | host h s _ _ ih => exact hostMovesKeepTheInvariant h s ih

/-- Settles O37: the invariant holds at reset and is kept, and under it no step stops. -/
theorem reachableStatesNeverStop : Obligations.ReachableStatesNeverStop := fun s hs =>
  ⟨hs.inv, everyStepReturnsANextState s hs.inv⟩

/-! ### NF at the TAIL step -/

/-- Settles O39: less than a block left is its own rest. -/
theorem needFinalIsNonzeroRemainder : Obligations.NeedFinalIsNonzeroRemainder := by
  intro s r hi hp hr hm
  obtain ⟨-, -, -, hnf⟩ := (inv_iff.mp hi).of_blocks hp hr
  simp [hnf, needFinal_eq_not, Nat.mod_eq_of_lt hm]

end Sys2Proof.Machine
end

section
/-! The pair a call will give (45_output.md R160, R162): every transition of a call keeps it, and so does every move of
the host. -/

namespace Sys2Proof.Machine

variable {s t : State} {msg : List Byte} {r : Call} {p : Result}

/-! ### The pair, from the registers and the message -/

/-- The pair of a call in BLOCKS, from its registers and the message. -/
def Call.promise (r : Call) (msg : List Byte) : Result :=
  (if r.nf then finalround (r.afterMessage msg) else r.afterMessage msg).pair

theorem promised_of_idle (hp : s.phase = .idle) : s.promised msg = none := by
  simp [State.promised, hp]

theorem promised_of_blocks (hp : s.phase = .blocks) (hr : s.call = some r) :
    s.promised msg = some (r.promise msg) := by
  simp [State.promised, hp, hr, Call.promise]

theorem promised_of_fin (hp : s.phase = .fin) (hr : s.call = some r) :
    s.promised msg = some (finalround r.acc).pair := by
  simp [State.promised, hp, hr]

theorem promised_of_outp (hp : s.phase = .outp) (hr : s.call = some r) : s.promised msg = some r.acc.pair := by
  simp [State.promised, hp, hr]

theorem promised_of_resp (hp : s.phase = .resp) : s.promised msg = s.result := by
  simp [State.promised, hp]

/-- The pair depends on the phase and the registers alone. -/
theorem promised_congr (hp : t.phase = s.phase) (hc : t.call = s.call) (hr : t.result = s.result) :
    t.promised msg = s.promised msg := by
  simp only [State.promised, hp, hc, hr]

theorem rspPort_of_resp (hp : s.phase = .resp) : s.rspPort = s.result := by
  simp [State.rspPort, State.rspValid, hp]

/-- BLOCK leaves the accumulators that the message will give (R130). -/
theorem Call.afterMessage_blockDone (hm : 12 ≤ r.rem) : (r.blockDone msg).afterMessage msg = r.afterMessage msg := by
  have hdiv : r.rem / 12 = (r.rem - 12) / 12 + 1 := by omega
  have hoff : r.off + 12 + 12 * ((r.rem - 12) / 12) = r.off + 12 * ((r.rem - 12) / 12 + 1) := by omega
  simp only [Call.afterMessage, Call.blockDone, hdiv, blocksFrom, Nat.mod_eq_sub_mod hm, hoff]

/-- With less than a block left, TAIL gives the accumulators of the message (R140). -/
theorem Call.afterMessage_of_lt (hm : r.rem < 12) : r.afterMessage msg = (r.tailDone msg).acc := by
  simp [Call.afterMessage, Call.tailDone, Nat.div_eq_of_lt hm, Nat.mod_eq_of_lt hm, blocksFrom]

theorem Call.promise_blockDone (hm : 12 ≤ r.rem) : (r.blockDone msg).promise msg = r.promise msg := by
  simp only [Call.promise, Call.afterMessage_blockDone hm]
  rfl

/-- BLOCK keeps the pair (R130). -/
theorem promised_blockDone (hp : s.phase = .blocks) (hm : 12 ≤ r.rem) :
    (s.blockDone r msg).promised msg = some (r.promise msg) :=
  (promised_of_blocks (s := s.blockDone r msg) hp rfl).trans (congrArg some (Call.promise_blockDone hm))

/-- TAIL keeps the pair: FINAL is still to come exactly where NF = 1 (R113, R140). -/
theorem promised_tailDone (hm : r.rem < 12) : (s.tailDone r msg).promised msg = some (r.promise msg) := by
  rw [Call.promise, Call.afterMessage_of_lt hm]
  cases hnf : r.nf with
  | true => exact promised_of_fin (by simp [State.tailDone, hnf, tailPhase]) rfl
  | false => exact promised_of_outp (by simp [State.tailDone, hnf, tailPhase]) rfl

/-! ### The bytes a call reads -/

/-- Where the answers are bytes of the message, what a read inside it gives is the message's. -/
theorem eq_sliceOf_of_readMsg {o n : Nat} {xs : List Byte} (ha : s.agrees msg) (hn : o + n ≤ msg.length)
    (hx : s.readMsg o n = .ok xs) : xs = sliceOf msg o n := by
  obtain ⟨hlen, hread⟩ := readMsg_ok_iff.mp hx
  refine List.ext_getElem? fun i => ?_
  rw [getElem?_sliceOf]
  by_cases hi : i < n
  · obtain ⟨-, hri⟩ := hread i hi
    have hxi : xs[i]? = some (xs[i]'(hlen ▸ hi)) := List.getElem?_eq_getElem _
    rw [if_pos hi, hxi]
    exact (ha (o + i) _ (by omega) (hri.trans hxi)).symm
  · rw [if_neg hi, List.getElem?_eq_none (by omega)]

/-! ### Every transition keeps the pair -/

/-- The call will give this pair, and while its registers are live its length is the message's. -/
def State.Promises (s : State) (msg : List Byte) (p : Result) : Prop :=
  s.promised msg = some p ∧ ∀ r, s.call = some r → r.off + r.rem = msg.length

theorem State.Promises.phase_ne_idle (h : s.Promises msg p) : s.phase ≠ .idle := fun hp => by
  simp [State.Promises, promised_of_idle hp] at h

theorem State.Promises.congr (h : s.Promises msg p) (hp : t.phase = s.phase) (hc : t.call = s.call)
    (hr : t.result = s.result) : t.Promises msg p :=
  ⟨(promised_congr hp hc hr).trans h.1, hc ▸ h.2⟩

/-- While the answers are bytes of the message, a transition without reset keeps the pair until the response is
taken. -/
theorem Transition.promises (h : Transition s t) (hrst : s.rst = false) (hs : s.Promises msg p)
    (ha : s.call.isSome = true → s.agrees msg) :
    t.Promises msg p ∨ (s.phase = .resp ∧ s.rspReady = true ∧ s.rspPort = some p ∧ t.phase = .idle) := by
  have hidle := hs.phase_ne_idle
  obtain ⟨hpair, hlen⟩ := hs
  cases h with
  | reset hr => simp [hrst] at hr
  | noCommand _ hp => exact absurd hp hidle
  | accept c hc => exact absurd (phase_of_presents hc) hidle
  | held => exact .inl (State.Promises.congr ⟨hpair, hlen⟩ rfl rfl rfl)
  | block r xs _ hp hr hm hx =>
    have hoff := hlen r hr
    obtain rfl := eq_sliceOf_of_readMsg (ha (by simp [hr])) (by omega) hx
    rw [promised_of_blocks hp hr] at hpair
    refine .inl ⟨?_, fun u hu => ?_⟩
    · exact (promised_blockDone hp hm).trans hpair
    · cases hu
      simp only
      omega
  | tail r xs _ hp hr hm hx =>
    obtain rfl := eq_sliceOf_of_readMsg (ha (by simp [hr])) (hlen r hr).le hx
    rw [promised_of_blocks hp hr] at hpair
    exact .inl ⟨(promised_tailDone hm).trans hpair, fun u hu => by cases hu; exact hlen r hr⟩
  | final r _ hp hr =>
    rw [promised_of_fin hp hr] at hpair
    exact .inl ⟨hpair, fun u hu => by cases hu; exact hlen r hr⟩
  | out r _ hp hr =>
    rw [promised_of_outp hp hr] at hpair
    exact .inl ⟨hpair, fun u hu => nomatch hu⟩
  | notTaken => exact .inl (State.Promises.congr ⟨hpair, hlen⟩ rfl rfl rfl)
  | rspack q _ hp hready hr =>
    exact .inr ⟨hp, hready, (rspPort_of_resp hp).trans ((promised_of_resp hp).symm.trans hpair), rfl⟩

/-- Only the acceptance makes registers live. -/
theorem Transition.call_isSome (h : Transition s t) (ht : t.call.isSome = true) (hp : s.phase ≠ .idle) :
    s.call.isSome = true := by
  cases h with
  | reset => simp at ht
  | noCommand => exact ht
  | accept c hc => exact absurd (phase_of_presents hc) hp
  | held => exact ht
  | block r _ _ _ hr => simp [hr]
  | tail r _ _ _ hr => simp [hr]
  | final r _ _ hr => simp [hr]
  | out => simp at ht
  | notTaken => exact ht
  | rspack => exact ht

/-! ### Every move of the host keeps the pair -/

theorem State.Promises.apply (hs : s.Promises msg p) (h : HostMove) : (h.apply s).Promises msg p := by
  obtain ⟨hphase, hcall, hresult, -, -⟩ := h.frame s
  exact hs.congr hphase hcall hresult

/-- A move under duty 4 answers with bytes of the message alone (R199). -/
theorem HostMove.agrees {h : HostMove} (hwf : s.mem.wf s.lenW = true) (ht : h.truthful msg = true)
    (ha : s.agrees msg) : (h.apply s).agrees msg := by
  intro o x ho hx
  obtain hm | ⟨q, v, rfl, -, hm⟩ | ⟨q, rfl, hm⟩ := h.mem_cases s <;> rw [hm] at hx
  · exact ha o x ho hx
  · by_cases hq : o = q
    · subst hq
      rw [Memory.read_write_same] at hx
      cases hx
      simpa [truthful, Nat.not_le.mpr ho] using ht
    · exact ha o x ho (Memory.read_write_other s.mem v hq ▸ hx)
  · by_cases hq : o = q
    · subst hq
      simp [Memory.read_erase_same o hwf] at hx
    · exact ha o x ho (Memory.read_erase_other s.mem hq ▸ hx)

/-- Under duty 2 a byte of the call that is answered stays answered with its value (R197). -/
theorem HostMove.read_kept {h : HostMove} {o : Nat} {x : Byte} (hk : h.keepsMessageStill s = true)
    (ho : o < s.callLength) (hx : s.mem.read o = some x) : (h.apply s).mem.read o = some x := by
  obtain hm | ⟨q, v, rfl, -, hm⟩ | ⟨q, rfl, hm⟩ := h.mem_cases s <;> rw [hm]
  · exact hx
  · by_cases hq : o = q
    · subst hq
      have hv : x = v := by simpa [keepsMessageStill, Nat.not_le.mpr ho, hx] using hk
      rw [Memory.read_write_same, hv]
    · rw [Memory.read_write_other s.mem v hq, hx]
  · have hq : o ≠ q := by
      rintro rfl
      simp [keepsMessageStill, Nat.not_le.mpr ho, hx] at hk
    rw [Memory.read_erase_other s.mem hq, hx]

theorem HostMove.answers {h : HostMove} (hk : h.keepsMessageStill s = true) (hl : s.callLength = msg.length)
    (ha : s.answers msg) : (h.apply s).answers msg := fun i hi => by
  have hx : msg[i]? = some msg[i] := List.getElem?_eq_getElem hi
  rw [hx, read_kept hk (hl ▸ hi) ((ha i hi).trans hx)]

/-! ### A call on course -/

/-- On course is: the invariant, the promise, and answers of this message while the registers are live. -/
theorem onCourse_iff :
    s.onCourse msg p ↔ s.Inv ∧ s.Promises msg p ∧ (s.call.isSome = true → s.agrees msg) := by
  have hlen : (s.call.isSome = true → s.callLength = msg.length ∧ s.agrees msg) ↔
      (∀ r, s.call = some r → r.off + r.rem = msg.length) ∧ (s.call.isSome = true → s.agrees msg) := by
    cases hr : s.call <;> simp [State.callLength, hr]
  rw [State.onCourse, hlen, inv_iff, State.Promises, and_assoc]

/-- Settles O52: the transitions, the moves under duties 2 and 4, and duty 2 on a readable message. -/
theorem promisedPairIsKept : Obligations.PromisedPairIsKept := by
  intro s msg p hs
  obtain ⟨-, -, hlen⟩ := id hs
  obtain ⟨hi, hpair, ha⟩ := onCourse_iff.mp hs
  refine ⟨fun t hrst hstep => ?step, fun h _ htrue => ?move, fun h hk hlive => HostMove.answers hk (hlen hlive).1⟩
  case step =>
    have h := transition_of_step hstep
    refine (h.promises hrst hpair ha).imp_left fun ht => onCourse_iff.mpr ⟨h.inv hi, ht, fun hlive => ?_⟩
    obtain ⟨hmem, -⟩ := h.frame
    rw [State.agrees, hmem]
    exact ha (h.call_isSome hlive hpair.phase_ne_idle)
  case move =>
    obtain ⟨-, hcall, -⟩ := h.frame s
    refine onCourse_iff.mpr ⟨h.inv hi, hpair.apply h, fun hlive => ?_⟩
    rw [hcall] at hlive
    exact HostMove.agrees hi.mem (htrue hlive) (ha hlive)

end Sys2Proof.Machine
end

section
/-! The encodings (30_encoding.md R71, R73, R75, R79): decoding undoes encoding up to the spelling of HASHPAIR with a
second seed of 0, encoding undoes decoding, and the codes of the micro-operations by match and mask. -/

namespace Sys2Proof.Machine

variable {lenW : Nat} {i : Instr}

/-! ### The two spellings of a command word -/

theorem canonical_hashpair_zero (seed : Word) (len : Nat) :
    (Instr.hashpair seed 0#32 len).canonical = .hash seed len := by
  rw [Instr.canonical, if_pos rfl]

theorem canonical_hashpair_of_ne {seed2 : Word} (seed1 : Word) (len : Nat) (h : seed2 ≠ 0#32) :
    (Instr.hashpair seed1 seed2 len).canonical = .hashpair seed1 seed2 len := if_neg h

/-- The decoder's spelling is the instruction itself, or HASH for HASHPAIR with second seed 0. -/
theorem canonical_cases (i : Instr) :
    i.canonical = i ∨ ∃ seed len, i = .hashpair seed 0#32 len ∧ i.canonical = .hash seed len := by
  cases i with
  | hashpair seed1 seed2 len =>
    by_cases h : seed2 = 0#32
    · subst h
      exact .inr ⟨seed1, len, rfl, canonical_hashpair_zero seed1 len⟩
    · exact .inl (canonical_hashpair_of_ne seed1 len h)
  | _ => exact .inl rfl

/-- The word of a command decodes to HASHPAIR over its fields, in the decoder's spelling. -/
theorem decodeCmd_encodeCmd {c : Command} (h : c.len < 2 ^ lenW) :
    decodeCmd lenW (encodeCmd c) = .ok (Instr.hashpair c.seed1 c.seed2 c.len).canonical := by
  simp only [decodeCmd, cmdFields_encodeCmd h, Instr.canonical]
  split <;> rfl

theorem decode_encode (h : i.wellFormed lenW = true) : decode lenW (encode i) = .ok i.canonical := by
  cases i with
  | hashpair seed1 seed2 len => exact decodeCmd_encodeCmd (c := ⟨seed1, seed2, len⟩) (of_decide_eq_true h)
  | hash seed len =>
    exact (decodeCmd_encodeCmd (c := ⟨seed, 0#32, len⟩) (of_decide_eq_true h)).trans
      (congrArg Except.ok (canonical_hashpair_zero seed len))
  | init => exact decodeUop_init
  | block => exact decodeUop_block
  | tail r => exact decodeUop_tail (of_decide_eq_true h)
  | final => exact decodeUop_final
  | out => exact decodeUop_out

/-- Settles O1: decoding undoes encoding, and HASH issues the command that HASHPAIR with second seed 0 issues. -/
theorem decodeOfEncodeIsTheInstruction : Obligations.DecodeOfEncodeIsTheInstruction := by
  intro lenW i hwf
  refine ⟨decode_encode hwf, canonical_cases i, fun s => ?_⟩
  obtain hc | ⟨seed, len, rfl, hc⟩ := canonical_cases i
  · rw [hc]
  · rw [hc, exec_hash, exec_hashpair]

/-! ### What decodes -/

/-- Settles O2: the decoder's answers row by row; a command word is the word of its fields. -/
theorem encodeOfDecodeIsTheWord : Obligations.EncodeOfDecodeIsTheWord := by
  intro lenW e i h
  cases e with
  | cmd w =>
    obtain ⟨c, hc, ⟨h2, rfl⟩ | ⟨h2, rfl⟩⟩ := decodeCmd_ok h
    · have hw : encodeCmd ⟨c.seed1, 0#32, c.len⟩ = w := by rw [← h2]; exact encodeCmd_of_cmdFields hc
      exact ⟨congrArg Encoded.cmd hw, decide_eq_true (cmdFields_len_lt hc), rfl⟩
    · exact ⟨congrArg Encoded.cmd (encodeCmd_of_cmdFields hc), decide_eq_true (cmdFields_len_lt hc),
        canonical_hashpair_of_ne c.seed1 c.len h2⟩
  | uop code =>
    obtain ⟨rfl, rfl⟩ | ⟨rfl, rfl⟩ | ⟨r, hr, rfl, rfl⟩ | ⟨rfl, rfl⟩ | ⟨rfl, rfl⟩ := decodeUop_ok h
    · exact ⟨rfl, rfl, rfl⟩
    · exact ⟨rfl, rfl, rfl⟩
    · exact ⟨rfl, decide_eq_true hr, rfl⟩
    · exact ⟨rfl, rfl, rfl⟩
    · exact ⟨rfl, rfl, rfl⟩

/-! ### The rows of the opcode map -/

variable {code : UopCode}

theorem decodeUop_eq_init_iff : decodeUop code = .ok .init ↔ code = 0x10#8 :=
  ⟨fun h => by simpa using decodeUop_ok h, fun h => h ▸ decodeUop_init⟩

theorem decodeUop_eq_block_iff : decodeUop code = .ok .block ↔ code = 0x20#8 :=
  ⟨fun h => by simpa using decodeUop_ok h, fun h => h ▸ decodeUop_block⟩

theorem decodeUop_eq_tail_iff {r : Nat} (hr : r ≤ 11) : decodeUop code = .ok (.tail r) ↔ code = uopCode 3 r :=
  ⟨fun h => by simpa [hr] using decodeUop_ok h, fun h => h ▸ decodeUop_tail hr⟩

theorem decodeUop_eq_final_iff : decodeUop code = .ok .final ↔ code = 0x40#8 :=
  ⟨fun h => by simpa using decodeUop_ok h, fun h => h ▸ decodeUop_final⟩

theorem decodeUop_eq_out_iff : decodeUop code = .ok .out ↔ code = 0x50#8 :=
  ⟨fun h => by simpa using decodeUop_ok h, fun h => h ▸ decodeUop_out⟩

/-- The mask of a fixed row covers the whole code. -/
theorem and_mask_all (code : UopCode) : code &&& 0xFF#8 = code := BitVec.and_allOnes

/-- A code is its two fields {op, r} put together (R73). -/
theorem and_op_add_and_r (code : UopCode) : (code &&& 0xF0#8) + (code &&& 0x0F#8) = code := by
  revert code
  decide

/-- The row of TAIL by match and mask: op 3, and r in the low four bits (R73). -/
theorem eq_uopCode_tail_iff {r : Nat} (hr : r ≤ 11) :
    code = uopCode 3 r ↔ code &&& 0xF0#8 = 0x30#8 ∧ (code &&& 0x0F#8).toNat = r := by
  constructor
  · rintro rfl
    interval_cases r <;> exact ⟨rfl, rfl⟩
  · rintro ⟨hop, rfl⟩
    rw [uopCode_tail, BitVec.ofNat_toNat, BitVec.setWidth_eq, ← hop, and_op_add_and_r]

/-- Settles O4: each row by its code, the mask of the fixed rows covering all of it. -/
theorem uopCodesSelectTheirRows : Obligations.UopCodesSelectTheirRows := by
  intro code
  rw [and_mask_all]
  refine ⟨decodeUop_eq_init_iff, decodeUop_eq_block_iff,
    fun r hr => (decodeUop_eq_tail_iff hr).trans (eq_uopCode_tail_iff hr), decodeUop_eq_final_iff,
    decodeUop_eq_out_iff, fun i h => ?only⟩
  case only =>
    obtain ⟨hi, -⟩ | ⟨hi, -⟩ | ⟨r, hr, hi, -⟩ | ⟨hi, -⟩ | ⟨hi, -⟩ := decodeUop_ok h
    · exact .inl hi
    · exact .inr (.inl hi)
    · exact .inr (.inr (.inl ⟨r, hr, hi⟩))
    · exact .inr (.inr (.inr (.inl hi)))
    · exact .inr (.inr (.inr (.inr hi)))

/-- Settles O6: the decoder evaluated on the words written out. -/
theorem writtenOutWordsDecode : Obligations.WrittenOutWordsDecode :=
  ⟨rfl, rfl, rfl, rfl, rfl, rfl, rfl, rfl⟩

end Sys2Proof.Machine
end

section
/-! The datapath (40_arith_and_bytes.md R94, R97, R98; 42_block_mixer.md R131; 43_tail_fold.md R140;
44_finalizer_avalanche.md R151): rotation and byte assembly as numbers, and the rounds run backwards line by line. -/

namespace Sys2Proof.Machine

/-! ### Rotation as a number -/

/-- The bits shifted up and the bits shifted out fill one word without overlap. -/
theorem rotl_parts_lt (x : Word) (k : Fin 32) :
    (x.toNat * 2 ^ k.val) % 2 ^ 32 + x.toNat / 2 ^ (32 - k.val) < 2 ^ 32 := by
  have hk := k.isLt
  have hpow : 2 ^ 32 = 2 ^ k.val * 2 ^ (32 - k.val) := by rw [← Nat.pow_add]; congr 1; omega
  have hhigh : x.toNat / 2 ^ (32 - k.val) < 2 ^ k.val :=
    Nat.div_lt_of_lt_mul (by rw [Nat.mul_comm, ← hpow]; exact x.isLt)
  have hlow : x.toNat % 2 ^ (32 - k.val) < 2 ^ (32 - k.val) := Nat.mod_lt _ (Nat.two_pow_pos _)
  calc (x.toNat * 2 ^ k.val) % 2 ^ 32 + x.toNat / 2 ^ (32 - k.val)
      = 2 ^ k.val * (x.toNat % 2 ^ (32 - k.val)) + x.toNat / 2 ^ (32 - k.val) := by
        rw [hpow, Nat.mul_comm x.toNat, Nat.mul_mod_mul_left]
    _ < 2 ^ k.val * (x.toNat % 2 ^ (32 - k.val)) + 2 ^ k.val := Nat.add_lt_add_left hhigh _
    _ = 2 ^ k.val * (x.toNat % 2 ^ (32 - k.val) + 1) := (Nat.mul_succ _ _).symm
    _ ≤ 2 ^ k.val * 2 ^ (32 - k.val) := Nat.mul_le_mul_left _ hlow
    _ = 2 ^ 32 := hpow.symm

theorem toNat_rotl (x : Word) (k : Fin 32) :
    (rotl x k).toNat = (x.toNat * 2 ^ k.val) % 2 ^ 32 + x.toNat / 2 ^ (32 - k.val) := by
  rw [rotl, BitVec.toNat_add, BitVec.toNat_shiftLeft, BitVec.toNat_ushiftRight, Nat.shiftLeft_eq,
    Nat.shiftRight_eq_div_pow, Nat.mod_eq_of_lt (rotl_parts_lt x k)]

theorem getLsbD_rotl (x : Word) (k : Fin 32) {i : Nat} (hi : i < 32) :
    (rotl x k).getLsbD i = x.getLsbD ((i + 32 - k.val) % 32) := by
  rw [BitVec.getLsbD_eq_getElem hi, getElem_rotl x k hi, BitVec.getLsbD_eq_getElem]

@[simp] theorem rotl_zero_amount (x : Word) : rotl x 0 = x := by
  ext i hi
  simp [getElem_rotl, Nat.mod_eq_of_lt hi]

@[simp] theorem rotl_allOnes (k : Fin 32) : rotl (BitVec.allOnes 32) k = BitVec.allOnes 32 := by
  ext i hi
  simp only [getElem_rotl, BitVec.getElem_allOnes]

/-- Settles O8: the two shifts as a number, the bits, and the worked examples evaluated. -/
theorem rotlMovesBitsAround : Obligations.RotlMovesBitsAround :=
  ⟨fun x k => ⟨toNat_rotl x k, fun _ => getLsbD_rotl x k, rotl_eq_rotateLeft x k⟩, rotl_zero_amount, rotl_zero_word,
    rotl_allOnes, by decide, by decide, by decide⟩

/-! ### Bytes assembled little-endian -/

theorem toNat_wordLe (x0 x1 x2 x3 : Byte) :
    (wordLe x0 x1 x2 x3).toNat = x0.toNat + 2 ^ 8 * x1.toNat + 2 ^ 16 * x2.toNat + 2 ^ 24 * x3.toNat := by
  rw [wordLe_eq_ofNat, BitVec.toNat_ofNat, Nat.mod_eq_of_lt]
  have h0 := x0.isLt
  have h1 := x1.isLt
  have h2 := x2.isLt
  have h3 := x3.isLt
  omega

/-- Up to four bytes as the sum of their weighted values (R98). -/
theorem toNat_partLe {xs : List Byte} (h : xs.length ≤ 4) :
    (partLe xs).toNat = ((List.range xs.length).map fun i => 2 ^ (8 * i) * (xs.getD i 0#8).toNat).sum := by
  rw [partLe_eq_wordLe_getD h, toNat_wordLe]
  match xs, h with
  | [], _ => rfl
  | [_], _ => simp
  | [_, _], _ => simp [List.range_succ]
  | [_, _, _], _ => simp [List.range_succ, Nat.add_assoc]
  | [_, _, _, _], _ => simp [List.range_succ, Nat.add_assoc]
  | _ :: _ :: _ :: _ :: _ :: _, h => exact absurd h (by simp only [List.length_cons]; omega)

/-- Settles O10: four bytes as one word, and up to four as the sum of their terms. -/
theorem wordsAreAssembledLittleEndian : Obligations.WordsAreAssembledLittleEndian :=
  ⟨fun x0 x1 x2 x3 => ⟨toNat_wordLe x0 x1 x2 x3, partLe_four x0 x1 x2 x3⟩, fun _ => toNat_partLe⟩

/-! ### The tail as a zero-padded block -/

/-- Zero bytes behind the list are the zeros read past its end. -/
theorem getD_append_replicate_zero (xs : List Byte) (k i : Nat) :
    (xs ++ List.replicate k 0#8).getD i 0#8 = xs.getD i 0#8 := by
  by_cases hi : i < xs.length
  · rw [List.getD_append _ _ _ _ hi]
  · rw [List.getD_append_right _ _ _ _ (Nat.le_of_not_lt hi), List.getD_eq_default _ _ (Nat.le_of_not_lt hi),
      List.getD_eq_getElem?_getD, List.getElem?_replicate]
    split <;> rfl

/-- Settles O14: both tails are the same zero-padded block. -/
theorem tailAddsAZeroPaddedBlock : Obligations.TailAddsAZeroPaddedBlock := by
  refine fun t xs h => ⟨tailFold_eq_wordLe t h, fun k hk => ?_⟩
  have hlen : (xs ++ List.replicate k 0#8).length = xs.length + k := by simp
  rw [← hlen, tailFold_eq_wordLe t (hlen ▸ hk), tailFold_eq_wordLe t h]
  simp only [getD_append_replicate_zero]

/-! ### The rounds run backwards -/

/-- The three operations of `mixLineA` undone, the last one first. -/
def unmixLineA (k : Fin 32) (t : Acc) : Acc :=
  let c := t.c - t.b
  { a := (t.a ^^^ rotl c k) + c, b := t.b, c := c }

/-- The three operations of `mixLineB` undone, the last one first. -/
def unmixLineB (k : Fin 32) (t : Acc) : Acc :=
  let a := t.a - t.c
  { a := a, b := (t.b ^^^ rotl a k) + a, c := t.c }

/-- The three operations of `mixLineC` undone, the last one first. -/
def unmixLineC (k : Fin 32) (t : Acc) : Acc :=
  let b := t.b - t.a
  { a := t.a, b := b, c := (t.c ^^^ rotl b k) + b }

@[simp] theorem unmixLineA_mixLineA (k : Fin 32) (t : Acc) : unmixLineA k (mixLineA k t) = t := by
  simp [unmixLineA, mixLineA]

@[simp] theorem unmixLineB_mixLineB (k : Fin 32) (t : Acc) : unmixLineB k (mixLineB k t) = t := by
  simp [unmixLineB, mixLineB]

@[simp] theorem unmixLineC_mixLineC (k : Fin 32) (t : Acc) : unmixLineC k (mixLineC k t) = t := by
  simp [unmixLineC, mixLineC]

/-- The two operations of `finLineC` undone, the last one first. -/
def unfinLineC (k : Fin 32) (t : Acc) : Acc :=
  { t with c := (t.c + rotl t.b k) ^^^ t.b }

/-- The two operations of `finLineA` undone, the last one first. -/
def unfinLineA (k : Fin 32) (t : Acc) : Acc :=
  { t with a := (t.a + rotl t.c k) ^^^ t.c }

/-- The two operations of `finLineB` undone, the last one first. -/
def unfinLineB (k : Fin 32) (t : Acc) : Acc :=
  { t with b := (t.b + rotl t.a k) ^^^ t.a }

@[simp] theorem unfinLineC_finLineC (k : Fin 32) (t : Acc) : unfinLineC k (finLineC k t) = t := by
  simp [unfinLineC, finLineC]

@[simp] theorem unfinLineA_finLineA (k : Fin 32) (t : Acc) : unfinLineA k (finLineA k t) = t := by
  simp [unfinLineA, finLineA]

@[simp] theorem unfinLineB_finLineB (k : Fin 32) (t : Acc) : unfinLineB k (finLineB k t) = t := by
  simp [unfinLineB, finLineB]

/-- The six lines undone in reverse order. -/
def unmixround (t : Acc) : Acc :=
  unmixLineA 4 (unmixLineB 6 (unmixLineC 8 (unmixLineA 16 (unmixLineB 19 (unmixLineC 4 t)))))

/-- The seven lines undone in reverse order. -/
def unfinalround (t : Acc) : Acc :=
  unfinLineC 14 (unfinLineA 11 (unfinLineB 25 (unfinLineC 16 (unfinLineA 4 (unfinLineB 14 (unfinLineC 24 t))))))

theorem unmixround_mixround (t : Acc) : unmixround (mixround t) = t := by
  simp [unmixround, mixround]

theorem unfinalround_finalround (t : Acc) : unfinalround (finalround t) = t := by
  simp [unfinalround, finalround]

/-- Every line takes zeros to zeros, because rotation does (R99 item 5). -/
theorem mixround_zero : mixround { a := 0#32, b := 0#32, c := 0#32 } = { a := 0#32, b := 0#32, c := 0#32 } := by
  simp [mixround, mixLineA, mixLineB, mixLineC]

/-- Settles O13. The mixing round of c = 1 and c = 1, and of c = 1 and c = 2, already shows that it is not linear. -/
theorem roundsRunBackwards : Obligations.RoundsRunBackwards := by
  refine ⟨⟨mixround_zero, finalround_zero⟩, fun t => ?mix, fun t => ?final,
    ⟨⟨0#32, 0#32, 1#32⟩, ⟨0#32, 0#32, 1#32⟩, ?add⟩, ⟨0#32, 0#32, 1#32⟩, ⟨0#32, 0#32, 2#32⟩, ?xor⟩
  case mix =>
    refine Eq.trans ?_ (unmixround_mixround t)
    simp only [unmixround, unmixLineA, unmixLineB, unmixLineC, rotl_eq_rotateLeft]
    rfl
  case final =>
    refine Eq.trans ?_ (unfinalround_finalround t)
    simp only [unfinalround, unfinLineA, unfinLineB, unfinLineC, rotl_eq_rotateLeft]
    rfl
  case add => decide
  case xor => decide

end Sys2Proof.Machine
end

section
/-! The command handshake (41_seed_driver_init.md R110, R111): INIT, HASHPAIR and HASH in IDLE are one acceptance, and
outside IDLE a command waits. -/

namespace Sys2Proof.Machine

variable {s : State} {c : Command} {lenW : Nat}

@[simp] theorem exec_init (s : State) : exec .init s = execInit s := rfl

/-- A word has the fields of a command exactly when it is its encoding (R71). -/
theorem cmdFields_eq_some_iff {w : Nat} (h : c.len < 2 ^ lenW) : cmdFields lenW w = some c ↔ w = encodeCmd c :=
  ⟨fun hw => (encodeCmd_of_cmdFields hw).symm, fun hw => hw ▸ cmdFields_encodeCmd h⟩

/-- The handshake takes the command from the port where the port presents it (R110). -/
theorem takeCommand_eq_ite (h : c.len < 2 ^ lenW) (ws : List Nat) :
    takeCommand lenW c ws = if ws.head? = some (encodeCmd c) then ws.tail else ws := by
  cases ws with
  | nil => simp [takeCommand]
  | cons w ws => simp [takeCommand, cmdFields_eq_some_iff h]

theorem takeCommand_encodeCmd (h : c.len < 2 ^ lenW) (ws : List Nat) : takeCommand lenW c (encodeCmd c :: ws) = ws :=
  takeCommand_head (cmdFields_encodeCmd h)

theorem issue_of_idle (hp : s.phase = .idle) : s.issue c = .next (s.accept c) := if_pos hp

theorem issue_of_busy (hp : s.phase ≠ .idle) : s.issue c = .next s.quiet := if_neg hp

/-- INIT accepts the command at the port (R111). -/
theorem execInit_of_head {ws : List Nat} (hp : s.phase = .idle) (hc : s.cmds = encodeCmd c :: ws)
    (hlen : c.len < 2 ^ s.lenW) : execInit s = .next (s.accept c) := by
  unfold execInit
  rw [whenIssued_of _ hp]
  simp [hc, cmdFields_encodeCmd hlen]

/-- `L32` is the length modulo 2^32 (R112). -/
theorem len32_mod (len : Nat) : len32 len = BitVec.ofNat 32 (len % 2 ^ 32) :=
  BitVec.eq_of_toNat_eq (by simp [len32])

/-- Settles O15: INIT is the acceptance of the command at the port. -/
theorem initCreatesTheAccumulators : Obligations.InitCreatesTheAccumulators := by
  intro s c rest hp hc hlen
  rw [exec_init, execInit_of_head hp hc hlen, State.accept, hc, takeCommand_encodeCmd hlen, ← len32_mod]
  rfl

/-- Settles O16: both commands are the acceptance of their operands. -/
theorem hostCommandsAreAcceptedWhenIdle : Obligations.HostCommandsAreAcceptedWhenIdle := by
  intro s seed1 seed2 len hp hlen t next
  have haccept : ∀ seed2 : Word, s.issue ⟨seed1, seed2, len⟩ = .next (next seed2) := fun seed2 => by
    rw [issue_of_idle hp, State.accept, takeCommand_eq_ite hlen]
    rfl
  exact ⟨haccept seed2, haccept 0#32⟩

/-- Settles O17: the next state of all three is `s.accept` of the command. -/
theorem acceptanceIsTheInitStep : Obligations.AcceptanceIsTheInitStep := by
  intro s seed1 seed2 len rest hp hc hlen
  refine ⟨s.accept ⟨seed1, seed2, len⟩, issue_of_idle hp, execInit_of_head hp hc hlen, ?hash, rfl, rfl, ?cmds, rfl,
    initCall ⟨seed1, seed2, len⟩, rfl, rfl, rfl, rfl, rfl, rfl⟩
  case hash =>
    rintro rfl
    exact issue_of_idle hp
  case cmds => rw [State.accept_cmds, hc, takeCommand_encodeCmd hlen]

/-- Settles O18: outside IDLE both commands wait. -/
theorem commandsWaitWhileBusy : Obligations.CommandsWaitWhileBusy := fun _ _ _ _ hp =>
  ⟨issue_of_busy hp, issue_of_busy hp⟩

end Sys2Proof.Machine
end

section
/-! The response (45_output.md section 2) and the status outputs (10_state.md R26). -/

namespace Sys2Proof.Machine

theorem Result.getLsbD_word (r : Result) (i : Nat) :
    r.word.getLsbD i = if i < 32 then r.pri.getLsbD i else r.sec.getLsbD (i - 32) :=
  BitVec.getLsbD_append

/-- The response word carries PRI in its low half and SEC in its high half (R72). -/
theorem Result.word_halves (r : Result) :
    r.word.extractLsb' 0 32 = r.pri ∧ r.word.extractLsb' 32 32 = r.sec := by
  constructor <;> ext i hi <;> simp [Result.getLsbD_word, hi]

/-- Settles O23: the port of RESP, the step that waits and the step that hands the response over. -/
theorem responseIsHeldUntilTaken : Obligations.ResponseIsHeldUntilTaken := by
  intro s r hrst hp hr
  obtain ⟨hpri, hsec⟩ := r.word_halves
  exact ⟨decide_eq_true hp, (rspPort_of_resp hp).trans hr, hpri, hsec,
    fun hready => step_of_transition (.notTaken hrst hp hready),
    fun hready => step_of_transition (.rspack r hrst hp hready hr)⟩

/-- Settles O32: the three outputs are decided by the phase, and outside their phases both ports show nothing. -/
theorem statusOutputsFollowThePhase : Obligations.StatusOutputsFollowThePhase := fun _ =>
  ⟨decide_eq_true_iff, decide_eq_true_iff, decide_eq_true_iff, msgPort_eq_none_of_ne_blocks,
    rspPort_eq_none_of_ne_resp⟩

end Sys2Proof.Machine
end

section
/-! The message port (20_memory.md R57, R63; 60_exceptions.md R183): an unanswered read holds the engine and is what the
port requests. -/

namespace Sys2Proof.Machine

variable {s t : State}

/-- What the port requests depends on phase, registers, answers and message space alone. -/
theorem msgPort_congr (hp : t.phase = s.phase) (hc : t.call = s.call) (hm : t.mem = s.mem) (hl : t.lenW = s.lenW) :
    t.msgPort = s.msgPort := by
  ext o
  simp only [msgPort_eq_some_iff, hp, hc, readMsg_congr hm hl]

@[simp] theorem State.msgPort_quiet (s : State) : s.quiet.msgPort = s.msgPort :=
  msgPort_congr (s := s) rfl rfl rfl rfl

/-- The first unanswered offset inside the message space is where the reads stop. -/
theorem readMsg_first_unanswered {o n i : Nat} (hi : i < n) (hs : o + n ≤ 2 ^ s.lenW) (h : s.mem.read (o + i) = none)
    (hj : ∀ j, j < i → (s.mem.read (o + j)).isSome = true) :
    s.readMsg o n = .error (.unanswered (o + i)) :=
  readMsg_unanswered_iff.mpr ⟨i, hi, rfl, by omega, h, fun j hji => ⟨by omega, hj j hji⟩⟩

/-- What the port requests is unanswered and due to the call in progress. -/
theorem msgPort_due {o : Nat} (h : s.msgPort = some o) :
    s.phase = .blocks ∧ s.mem.read o = none ∧
      ∃ r, s.call = some r ∧ r.off ≤ o ∧ o < r.off + r.rem ∧ o < r.off + 12 := by
  obtain ⟨hp, r, hr, hread⟩ := msgPort_eq_some_iff.mp h
  obtain ⟨i, hi, rfl, -, hnone, -⟩ := readMsg_unanswered_iff.mp hread
  obtain ⟨hrem, htwelve⟩ := dueBytes_le r.rem
  exact ⟨hp, hnone, r, hr, by omega, by omega, by omega⟩

/-- Settles O24: BLOCK and TAIL held, the port before and after the held step, and what the port requests. -/
theorem unansweredReadHoldsTheEngine : Obligations.UnansweredReadHoldsTheEngine := by
  refine ⟨fun s r i hp hr hnone => ⟨fun hm hi hs => ?block, fun hm hi hs => ?tail, fun hi hs hj => ?port⟩,
    fun s o => msgPort_due⟩
  case block =>
    obtain ⟨o, ho⟩ := readMsg_unanswered hs hi hnone
    exact execBlock_held hp hr hm ho
  case tail =>
    obtain ⟨o, ho⟩ := readMsg_unanswered hs hi hnone
    exact execTail_held hp hr hm ho
  case port =>
    have ho : s.readMsg r.off (dueBytes r.rem) = .error (.unanswered (r.off + i)) :=
      readMsg_first_unanswered hi hs hnone hj
    have hport : s.msgPort = some (r.off + i) := msgPort_eq_some_iff.mpr ⟨hp, r, hr, ho⟩
    exact ⟨hport, s.msgPort_quiet.trans hport, fun hrst => step_of_held hrst hp hr ho⟩

end Sys2Proof.Machine
end

section
/-! Where an instruction stops by name: a precondition that fails, a dead register, an offset outside the message space,
a word that is too wide. -/

namespace Sys2Proof.Machine

variable {s : State}

/-! ### A precondition fails -/

theorem whenIssued_eq_notIssued_iff {p : Prop} [Decidable p] {k : Host.Outcome State Fault Refusal} :
    whenIssued p k = .refused .notIssuedHere ↔ ¬p ∨ k = .refused .notIssuedHere := by
  by_cases hp : p
  · rw [whenIssued_of k hp]
    simp [hp]
  · rw [whenIssued_not k hp]
    simp [hp]

theorem withCall_eq_refused_iff {k : Call → Host.Outcome State Fault Refusal} {e : Refusal} :
    s.withCall k = .refused e ↔ ∃ r, s.call = some r ∧ k r = .refused e := by
  cases hr : s.call <;> simp [State.withCall, hr]

/-- The reads themselves never say "not issued". -/
theorem withBytes_eq_notIssued_iff {o n : Nat} {k : List Byte → Host.Outcome State Fault Refusal} :
    s.withBytes o n k = .refused .notIssuedHere ↔ ∃ xs, s.readMsg o n = .ok xs ∧ k xs = .refused .notIssuedHere := by
  rw [State.withBytes]
  cases s.readMsg o n with
  | ok xs => simp
  | error e => cases e <;> simp

theorem execInit_eq_notIssued_iff : execInit s = .refused .notIssuedHere ↔ s.phase ≠ .idle ∨ s.cmds = [] := by
  rw [execInit, whenIssued_eq_notIssued_iff]
  refine or_congr_right ?_
  cases s.cmds with
  | nil => simp
  | cons w ws => cases hc : cmdFields s.lenW w <;> simp [hc]

/-- Settles O25: each precondition in turn; nothing behind them refuses by this name. -/
theorem microOperationsStopWhereNotIssued : Obligations.MicroOperationsStopWhereNotIssued := by
  refine fun s => ⟨execInit_eq_notIssued_iff, ?block, fun n => ?tail, ?final, ?out⟩
  case block =>
    simp [execBlock, whenIssued_eq_notIssued_iff, withCall_eq_refused_iff, withBytes_eq_notIssued_iff]
  case tail =>
    simp [execTail, whenIssued_eq_notIssued_iff, withCall_eq_refused_iff, withBytes_eq_notIssued_iff,
      imp_iff_not_or]
  case final => simp [execFinal, whenIssued_eq_notIssued_iff, withCall_eq_refused_iff]
  case out => simp [execOut, whenIssued_eq_notIssued_iff, withCall_eq_refused_iff]

/-! ### A dead register -/

theorem withCall_dead (k : Call → Host.Outcome State Fault Refusal) (hr : s.call = none) :
    s.withCall k = .fault .deadRead := by
  simp [State.withCall, hr]

theorem withResult_dead (k : Result → Host.Outcome State Fault Refusal) (hr : s.result = none) :
    s.withResult k = .fault .deadRead := by
  simp [State.withResult, hr]

/-- Settles O26: each instruction reads the registers right behind its phase, and so does the sequencer in BLOCKS. -/
theorem deadRegistersFaultOnRead : Obligations.DeadRegistersFaultOnRead := by
  refine ⟨fun s hr => ⟨fun hp => ⟨?block, fun n => ?tail, fun hrst => step_of_blocks_dead hrst hp hr⟩,
    fun hp => ?final, fun hp => ?out⟩, fun s hr hp hrst hready => ?rspack⟩
  case block => rw [exec_block, execBlock, whenIssued_of _ hp, withCall_dead _ hr]
  case tail => rw [exec_tail, execTail, whenIssued_of _ hp, withCall_dead _ hr]
  case final => rw [exec_final, execFinal, whenIssued_of _ hp, withCall_dead _ hr]
  case out => rw [exec_out, execOut, whenIssued_of _ hp, withCall_dead _ hr]
  case rspack =>
    rw [step_of_rspack hrst (by rw [nextAction_resp hp, hready, if_pos rfl]), State.respond,
      whenIssued_of _ ⟨hp, hready⟩, withResult_dead _ hr]

/-! ### What does not exist -/

/-- Reads stop at the first offset outside the message space once those before it are answered. -/
theorem readMsg_outside {o n i : Nat} (hi : i < n) (ho : 2 ^ s.lenW ≤ o + i)
    (hj : ∀ j, j < i → o + j < 2 ^ s.lenW ∧ (s.mem.read (o + j)).isSome = true) :
    ∃ p, s.readMsg o n = .error (.outside p) := by
  cases h : s.readMsg o n with
  | ok xs =>
    obtain ⟨-, hread⟩ := readMsg_ok_iff.mp h
    obtain ⟨hin, -⟩ := hread i hi
    omega
  | error e =>
    cases e with
    | outside p => exact ⟨p, rfl⟩
    | unanswered p =>
      obtain ⟨q, -, rfl, hin, hnone, hq⟩ := readMsg_unanswered_iff.mp h
      obtain hqi | hiq := Nat.lt_or_ge q i
      · exact absurd (hj q hqi).2 (by simp [hnone])
      · obtain rfl | hlt := Nat.eq_or_lt_of_le hiq
        · omega
        · obtain ⟨hin, -⟩ := hq i hlt
          omega

theorem withBytes_outside {o n p : Nat} (k : List Byte → Host.Outcome State Fault Refusal)
    (h : s.readMsg o n = .error (.outside p)) : s.withBytes o n k = .refused .offsetOutsideMessageSpace := by
  simp [State.withBytes, h]

theorem cmdFields_eq_none {lenW w : Nat} (h : 2 ^ (64 + lenW) ≤ w) : cmdFields lenW w = none :=
  if_neg (Nat.not_lt.mpr h)

theorem step_of_undecodable {w : Encoded} {e : DecodeError} (hrst : s.rst = false) (ha : s.nextAction = .ok (.run w))
    (hd : decode s.lenW w = .error e) : step s = .refused (.undecodable e) := by
  simp [step, hrst, ha, hd]

theorem nextAction_idle_of_cons {w : Nat} {ws : List Nat} (hp : s.phase = .idle) (hc : s.cmds = w :: ws) :
    s.nextAction = .ok (.run (.cmd w)) := by
  simp [State.nextAction, hp, hc]

/-- Settles O27: the reads of BLOCK and TAIL, and the word at the port. -/
theorem whatDoesNotExistStopsByName : Obligations.WhatDoesNotExistStopsByName := by
  refine ⟨fun s r i hp hr ho hj => ⟨fun hm hi => ?block, fun hm hi => ?tail⟩, fun s w rest hp hc hw => ?word⟩
  case block =>
    obtain ⟨p, hx⟩ := readMsg_outside hi ho hj
    rw [exec_block, execBlock, whenIssued_of _ hp, withCall_of _ hr, whenIssued_of _ hm, withBytes_outside _ hx]
  case tail =>
    obtain ⟨p, hx⟩ := readMsg_outside hi ho hj
    rw [exec_tail, execTail, whenIssued_of _ hp, withCall_of _ hr, whenIssued_of _ ⟨hm, rfl⟩, withBytes_outside _ hx]
  case word =>
    have hf := cmdFields_eq_none hw
    refine ⟨?_, fun hrst => step_of_undecodable hrst (nextAction_idle_of_cons hp hc) (by simp [decode, decodeCmd, hf])⟩
    rw [exec_init, execInit, whenIssued_of _ hp]
    simp [hc, hf]

/-- Settles O28: in IDLE the word the sequencer issues is the one at the port. -/
theorem stepRunsTheDecodedInstruction : Obligations.StepRunsTheDecodedInstruction := by
  intro s w i hrst hd
  refine ⟨fun ha => step_of_run hrst ha hd, fun hp hw => ?_⟩
  obtain ⟨v, rest, rfl, hc⟩ := hw
  exact step_of_run hrst (nextAction_idle_of_cons hp hc) hd

end Sys2Proof.Machine
end

section
/-! What every instruction leaves unchanged (10_state.md section 5, 20_memory.md section 1): one inversion of `exec`,
and the frames read off it. -/

namespace Sys2Proof.Machine

variable {s t : State} {i : Instr}

/-- What an instruction that answers a next state did: nothing, the acceptance of a command, or its own work on live
registers. -/
inductive Effect (s : State) : Instr → State → Prop where
  | nothing (i : Instr) : Effect s i s.quiet
  | accept (i : Instr) (c : Command) : s.phase = .idle → Effect s i (s.accept c)
  | block (r : Call) (xs : List Byte) : s.call = some r → 12 ≤ r.rem →
      Effect s .block (s.mixed r xs)
  | tail (r : Call) (xs : List Byte) : s.call = some r → Effect s (.tail r.rem) (s.folded r xs)
  | final (r : Call) : s.call = some r → Effect s .final (s.avalanched r)
  | out (r : Call) : s.call = some r → Effect s .out (s.paired r)

theorem effect_of_issue {c : Command} (h : s.issue c = .next t) : Effect s i t := by
  obtain ⟨hp, rfl⟩ | ⟨-, rfl⟩ := issue_next h
  · exact .accept i c hp
  · exact .nothing i

theorem effect_of_exec (h : exec i s = .next t) : Effect s i t := by
  cases i with
  | hashpair => exact effect_of_issue h
  | hash => exact effect_of_issue h
  | init =>
    obtain ⟨_, _, c, hp, -, -, rfl⟩ := execInit_next h
    exact .accept .init c hp
  | block =>
    obtain ⟨r, -, hr, hm, ⟨xs, -, rfl⟩ | ⟨_, -, rfl⟩⟩ := execBlock_next h
    · exact .block r xs hr hm
    · exact .nothing .block
  | tail n =>
    obtain ⟨r, -, hr, -, rfl, ⟨xs, -, rfl⟩ | ⟨_, -, rfl⟩⟩ := execTail_next h
    · exact .tail r xs hr
    · exact .nothing (.tail r.rem)
  | final =>
    obtain ⟨r, -, hr, rfl⟩ := execFinal_next h
    exact .final r hr
  | out =>
    obtain ⟨r, -, hr, rfl⟩ := execOut_next h
    exact .out r hr

theorem Effect.frame (h : Effect s i t) :
    t.mem = s.mem ∧ t.lenW = s.lenW ∧ t.rst = s.rst ∧ t.rspReady = s.rspReady := by
  cases h <;> exact ⟨rfl, rfl, rfl, rfl⟩

/-- Settles O40: no effect and no transition touches these fields. -/
theorem engineNeverWritesMemory : Obligations.EngineNeverWritesMemory := by
  refine ⟨fun i s t h => ?instr, fun s t h => ?step⟩
  case instr =>
    have hf := (effect_of_exec h).frame
    exact ⟨fun o => by rw [hf.1], hf⟩
  case step =>
    have hf := (transition_of_step h).frame
    exact ⟨fun o => by rw [hf.1], hf⟩

/-- Of the instructions only BLOCK and a TAIL of at least one byte read. -/
theorem Effect.reads_nil_or (h : Effect s i t) : t.reads = [] ∨ i = .block ∨ ∃ n, 0 < n ∧ i = .tail n := by
  cases h with
  | nothing => exact .inl rfl
  | accept => exact .inl rfl
  | block => exact .inr (.inl rfl)
  | tail r =>
    obtain h0 | hpos := Nat.eq_zero_or_pos r.rem
    · exact .inl (by rw [State.folded_reads, h0]; rfl)
    · exact .inr (.inr ⟨r.rem, hpos, rfl⟩)
  | final => exact .inl rfl
  | out => exact .inl rfl

/-- The reads of an instruction are consecutive offsets inside the remaining bytes. -/
theorem Effect.reads_eq (h : Effect s i t) :
    t.reads = [] ∨ ∃ r n, s.call = some r ∧ n ≤ r.rem ∧ t.reads = List.range' r.off n := by
  cases h with
  | nothing => exact .inl rfl
  | accept => exact .inl rfl
  | block r xs hr hm => exact .inr ⟨r, 12, hr, hm, rfl⟩
  | tail r xs hr => exact .inr ⟨r, r.rem, hr, Nat.le_refl _, rfl⟩
  | final => exact .inl rfl
  | out => exact .inl rfl

/-- Settles O41: consecutive offsets ascend, and they start at off. -/
theorem onlyBlockAndTailReadTheMessage : Obligations.OnlyBlockAndTailReadTheMessage := by
  intro i s t h
  have he := effect_of_exec h
  refine ⟨he.reads_nil_or, ?_⟩
  obtain hnil | ⟨r, n, hr, hn, hreads⟩ := he.reads_eq
  · simp [hnil]
  · rw [hreads]
    refine ⟨List.pairwise_lt_range', fun o ho => ?_⟩
    obtain ⟨hlo, hhi⟩ := List.mem_range'_1.mp ho
    exact ⟨r, hr, hlo, by omega⟩

/-- Settles O42: outside IDLE an effect leaves the registers dead or NF as it was. -/
theorem onlyInitWritesNeedFinal : Obligations.OnlyInitWritesNeedFinal := by
  intro i s t r u h hr hu hp
  cases effect_of_exec h with
  | nothing => exact congrArg Call.nf (Option.some.inj (hu.symm.trans hr))
  | accept _ c hidle => exact absurd hidle hp
  | block _ xs hr' => cases hr.symm.trans hr'; cases hu; rfl
  | tail _ xs hr' => cases hr.symm.trans hr'; cases hu; rfl
  | final _ hr' => cases hr.symm.trans hr'; cases hu; rfl
  | out => cases hu

end Sys2Proof.Machine
end

section
/-! The trace port and the inputs that a step ignores (60_exceptions.md sections 3 and 8, 70_reset_and_hazards.md
section 3). -/

namespace Sys2Proof.Machine

variable {s t : State}

/-! ### A pulse for each micro-operation, and none otherwise -/

/-- The state after a step that completes nothing: reset, the response handshake, or no change (R181, R190). -/
def State.silent (s : State) : State :=
  if s.rst then s.applyReset
  else if s.phase = .resp ∧ s.rspReady = true then s.taken
  else s.quiet

theorem silent_of_reset (hrst : s.rst = true) : s.silent = s.applyReset := if_pos hrst

theorem silent_of_rspack (hrst : s.rst = false) (hp : s.phase = .resp) (hready : s.rspReady = true) :
    s.silent = s.taken := by
  simp [State.silent, hrst, hp, hready]

theorem silent_of_quiet (hrst : s.rst = false) (h : s.phase ≠ .resp ∨ s.rspReady = false) : s.silent = s.quiet := by
  rcases h with h | h <;> simp [State.silent, hrst, h]

theorem msgPort_eq_none_of_ok {r : Call} {xs : List Byte} (hr : s.call = some r)
    (hx : s.readMsg r.off (dueBytes r.rem) = .ok xs) : s.msgPort = none := by
  refine Option.eq_none_iff_forall_ne_some.mpr fun o ho => ?_
  obtain ⟨-, u, hu, hread⟩ := msgPort_eq_some_iff.mp ho
  cases hr.symm.trans hu
  simp [hx] at hread

/-- A transition completes nothing, or it is an executed micro-operation with its code, where none of the causes of
silence holds. -/
theorem Transition.silent_or_pulse (h : Transition s t) :
    (t.trc = none ∧ t = s.silent) ∨
      ∃ code i, t.trc = some code ∧ decode 32 (.uop code) = .ok i ∧ exec i s = .next t ∧ s.rst = false ∧
        s.phase ≠ .resp ∧ s.msgPort = none ∧ ¬(s.phase = .idle ∧ s.cmds = []) := by
  cases h with
  | reset hrst => exact .inl ⟨rfl, (silent_of_reset hrst).symm⟩
  | noCommand hrst hp => exact .inl ⟨rfl, (silent_of_quiet hrst (.inl (by simp [hp]))).symm⟩
  | held r o hrst hp => exact .inl ⟨rfl, (silent_of_quiet hrst (.inl (by simp [hp]))).symm⟩
  | notTaken hrst _ hready => exact .inl ⟨rfl, (silent_of_quiet hrst (.inr hready)).symm⟩
  | rspack p hrst hp hready => exact .inl ⟨rfl, (silent_of_rspack hrst hp hready).symm⟩
  | accept c hc =>
    have ⟨hrst, hp, _, hhead⟩ := hc
    exact .inr ⟨_, .init, rfl, decodeUop_init, execInit_of_presents hc, hrst, by simp [hp],
      msgPort_eq_none_of_ne_blocks (by simp [hp]), fun hnone => by simp [hnone.2] at hhead⟩
  | block r xs hrst hp hr hm hx =>
    exact .inr ⟨_, .block, rfl, decodeUop_block, execBlock_of hp hr hm hx, hrst, by simp [hp],
      msgPort_eq_none_of_ok hr (by rw [dueBytes_of_block hm, hx]), by simp [hp]⟩
  | tail r xs hrst hp hr hm hx =>
    exact .inr ⟨_, .tail r.rem, rfl, decodeUop_tail (by omega), execTail_of hp hr hm hx, hrst, by simp [hp],
      msgPort_eq_none_of_ok hr (by rw [dueBytes_of_tail hm, hx]), by simp [hp]⟩
  | final r hrst hp hr =>
    exact .inr ⟨_, .final, rfl, decodeUop_final, execFinal_of hp hr, hrst, by simp [hp],
      msgPort_eq_none_of_ne_blocks (by simp [hp]), by simp [hp]⟩
  | out r hrst hp hr =>
    exact .inr ⟨_, .out, rfl, decodeUop_out, execOut_of hp hr, hrst, by simp [hp],
      msgPort_eq_none_of_ne_blocks (by simp [hp]), by simp [hp]⟩

/-- What completes nothing leaves phase, registers and result, or is the response handshake, or reset. -/
theorem silent_cases (s : State) :
    (s.silent.phase = s.phase ∧ s.silent.call = s.call ∧ s.silent.result = s.result) ∨
      (s.phase = .resp ∧ s.rspReady = true ∧ s.silent.phase = .idle) ∨ (s.rst = true ∧ s.silent.phase = .idle) := by
  unfold State.silent
  split
  · exact .inr (.inr ⟨‹_›, rfl⟩)
  · split
    · next h => exact .inr (.inl ⟨h.1, h.2, rfl⟩)
    · exact .inl ⟨rfl, rfl, rfl⟩

/-- Settles O43: the pulse, the step without one, and the four causes of silence. -/
theorem tracePulsesOncePerMicroOperation : Obligations.TracePulsesOncePerMicroOperation := by
  intro s t hstep
  obtain ⟨hnone, ht⟩ | ⟨code, i, hcode, hd, hexec, hrst, hresp, hport, hidle⟩ :=
    (transition_of_step hstep).silent_or_pulse
  · refine ⟨fun code hc => ?_, fun _ => ht ▸ silent_cases s, fun _ => hnone⟩
    simp [hnone] at hc
  · refine ⟨fun c hc => ?_, fun hc => ?_, fun hcause => ?_⟩
    · cases hcode.symm.trans hc
      exact ⟨hrst, hport, i, hd, hexec⟩
    · simp [hcode] at hc
    · obtain h | h | h | h := hcause
      · simp [hrst] at h
      · exact absurd h hresp
      · exact absurd hport h
      · exact absurd h hidle

/-! ### The waiting commands -/

/-- The handshake takes the head of the port. -/
theorem takeCommand_of_presents {c : Command} (h : s.presents c) : takeCommand s.lenW c s.cmds = s.cmds.tail := by
  obtain ⟨-, -, hlen, hhead⟩ := h
  rw [takeCommand_eq_ite hlen, if_pos hhead]

/-- Settles O44: only the acceptance takes a command, and in IDLE without reset the step is it or a wait. -/
theorem commandsLeaveOnlyByTheHandshake : Obligations.CommandsLeaveOnlyByTheHandshake := by
  refine fun s t hi hstep => ⟨fun hbusy => ?_, fun hrst hp => ?_⟩
  · obtain hc | ⟨c, ⟨hrst, hp, -⟩, -⟩ := (transition_of_step hstep).cmds_eq
    · exact hc
    · simp [hrst, hp] at hbusy
  · obtain hnil | ⟨c, hc⟩ := cmds_of_inv_of_idle hi hrst hp
    · cases (step_of_wait hrst (nextAction_idle_of_nil hp hnil)).symm.trans hstep
      simp [hnil]
    · cases (step_of_presents hc).symm.trans hstep
      exact takeCommand_of_presents hc

/-! ### Inputs that are ignored -/

/-- Outside RESP `rsp_ready` only passes through a transition. -/
theorem Transition.with_rspReady (h : Transition s t) (v : Bool) (hp : s.phase ≠ .resp) :
    Transition { s with rspReady := v } { t with rspReady := v } := by
  have hread : ∀ o n, State.readMsg { s with rspReady := v } o n = s.readMsg o n := fun o n =>
    readMsg_congr (s := s) rfl rfl
  cases h with
  | reset hrst => exact .reset hrst
  | noCommand hrst hidle hc => exact .noCommand hrst hidle hc
  | accept c hc => exact .accept c hc
  | held r o hrst hb hr ho => exact .held r o hrst hb hr ((hread _ _).trans ho)
  | block r xs hrst hb hr hm hx => exact .block r xs hrst hb hr hm ((hread _ _).trans hx)
  | tail r xs hrst hb hr hm hx => exact .tail r xs hrst hb hr hm ((hread _ _).trans hx)
  | final r hrst hf hr => exact .final r hrst hf hr
  | out r hrst ho hr => exact .out r hrst ho hr
  | notTaken _ hresp => exact absurd hresp hp
  | rspack p _ hresp => exact absurd hresp hp

/-- Outside IDLE the waiting commands only pass through a transition. -/
theorem Transition.with_cmds (h : Transition s t) (ws : List Nat) (hp : s.phase ≠ .idle) :
    Transition { s with cmds := ws } { t with cmds := ws } := by
  have hread : ∀ o n, State.readMsg { s with cmds := ws } o n = s.readMsg o n := fun o n =>
    readMsg_congr (s := s) rfl rfl
  cases h with
  | reset hrst => exact .reset hrst
  | noCommand _ hidle => exact absurd hidle hp
  | accept c hc => exact absurd (phase_of_presents hc) hp
  | held r o hrst hb hr ho => exact .held r o hrst hb hr ((hread _ _).trans ho)
  | block r xs hrst hb hr hm hx => exact .block r xs hrst hb hr hm ((hread _ _).trans hx)
  | tail r xs hrst hb hr hm hx => exact .tail r xs hrst hb hr hm ((hread _ _).trans hx)
  | final r hrst hf hr => exact .final r hrst hf hr
  | out r hrst ho hr => exact .out r hrst ho hr
  | notTaken hrst hresp hready => exact .notTaken hrst hresp hready
  | rspack p hrst hresp hready hr => exact .rspack p hrst hresp hready hr

/-- Settles O45: only the two transitions of RESP look at the pin. -/
theorem strayReadyIsIgnored : Obligations.StrayReadyIsIgnored := fun _ _ v hp h =>
  step_of_transition ((transition_of_step h).with_rspReady v hp)

/-- Settles O46: only the two transitions of IDLE look at the port. -/
theorem waitingCommandsDoNotDisturbACall : Obligations.WaitingCommandsDoNotDisturbACall := fun _ _ ws hp h =>
  step_of_transition ((transition_of_step h).with_cmds ws hp)

end Sys2Proof.Machine
end

section
/-! Control and data (20_memory.md section 9): the control part of the next state depends on the control part of this
one and on whether a micro-operation completes, and on no accumulator and no message byte. -/

namespace Sys2Proof.Machine

variable {s s' t t' : State} {r : Call}

/-- The registers of a call without their accumulators. -/
def Call.control (r : Call) : Call :=
  { r with acc := { a := 0#32, b := 0#32, c := 0#32 } }

/-! ### What states with the same control part share -/

theorem phase_eq_of_control (h : s.control = s'.control) : s'.phase = s.phase := (congrArg State.phase h).symm

theorem rst_eq_of_control (h : s.control = s'.control) : s'.rst = s.rst := (congrArg State.rst h).symm

/-- Being presented a command is a matter of the control part. -/
theorem presents_of_control {c : Command} (h : s.control = s'.control) (hc : s.presents c) : s'.presents c :=
  show s'.control.presents c from h ▸ show s.control.presents c from hc

theorem call_of_control (h : s.control = s'.control) (hr : s.call = some r) :
    ∃ r', s'.call = some r' ∧ r.control = r'.control := by
  have hc : s'.call.map Call.control = some r.control := by
    rw [← Option.map_some, ← hr]
    exact (congrArg State.call h).symm
  obtain ⟨r', hr', hctl⟩ := Option.map_eq_some_iff.mp hc
  exact ⟨r', hr', hctl.symm⟩

theorem rem_eq_of_control {r' : Call} (h : r.control = r'.control) : r'.rem = r.rem := (congrArg Call.rem h).symm

/-! ### Behind each operation the control part is that of the same operation on control parts alone -/

theorem control_accept (s : State) (c : Command) : (s.accept c).control = (s.control.accept c).control := by
  simp [State.control, State.accept, State.pulse, Function.comp_def]

theorem control_mixed (s : State) (r : Call) (xs : List Byte) :
    (s.mixed r xs).control = (s.control.mixed r.control []).control := by
  simp [State.control, State.mixed, State.pulse, Call.control, Function.comp_def]

theorem control_folded (s : State) (r : Call) (xs : List Byte) :
    (s.folded r xs).control = (s.control.folded r.control []).control := by
  simp [State.control, State.folded, State.pulse, Call.control, Function.comp_def]

theorem control_avalanched (s : State) (r : Call) :
    (s.avalanched r).control = (s.control.avalanched r.control).control := by
  simp [State.control, State.avalanched, State.pulse, Call.control, Function.comp_def]

theorem control_paired (s : State) (r : Call) : (s.paired r).control = (s.control.paired r.control).control := by
  simp [State.control, State.paired, State.pulse]

theorem control_silent (s : State) : s.silent.control = s.control.silent.control := by
  have hrst : s.control.rst = s.rst := rfl
  have hp : s.control.phase = s.phase := rfl
  have hready : s.control.rspReady = s.rspReady := rfl
  simp only [State.silent, hrst, hp, hready]
  split
  · rfl
  · split
    · simp [State.control, State.taken, State.quiet, Function.comp_def]
    · simp [State.control, State.quiet, Function.comp_def]

/-! ### The same control part behind both steps -/

theorem Transition.eq_silent (h : Transition s t) (ht : t.trc = none) : t = s.silent := by
  obtain ⟨-, ht⟩ | ⟨code, i, hcode, -⟩ := h.silent_or_pulse
  · exact ht
  · simp [ht] at hcode

/-- In BLOCKS with a whole block left a transition that pulses is BLOCK. -/
theorem Transition.eq_mixed (h : Transition s t) (ht : t.trc.isSome = true) (hrst : s.rst = false)
    (hp : s.phase = .blocks) (hr : s.call = some r) (hm : 12 ≤ r.rem) : ∃ xs, t = s.mixed r xs := by
  have hstep := step_of_transition h
  rw [step_eq_execBlock hrst hp hr hm] at hstep
  obtain ⟨u, -, hu, -, ⟨xs, -, rfl⟩ | ⟨_, -, rfl⟩⟩ := execBlock_next hstep
  · cases hr.symm.trans hu
    exact ⟨xs, rfl⟩
  · simp at ht

/-- In BLOCKS with less than a block left a transition that pulses is TAIL. -/
theorem Transition.eq_folded (h : Transition s t) (ht : t.trc.isSome = true) (hrst : s.rst = false)
    (hp : s.phase = .blocks) (hr : s.call = some r) (hm : r.rem < 12) : ∃ xs, t = s.folded r xs := by
  have hstep := step_of_transition h
  rw [step_eq_execTail hrst hp hr hm] at hstep
  obtain ⟨u, -, hu, -, -, ⟨xs, -, rfl⟩ | ⟨_, -, rfl⟩⟩ := execTail_next hstep
  · cases hr.symm.trans hu
    exact ⟨xs, rfl⟩
  · simp at ht

/-- Where both transitions pulse, the same micro-operation completes in both. -/
theorem control_eq_of_pulse (hc : s.control = s'.control) (h : Transition s t) (h' : Transition s' t')
    (ht : t.trc.isSome = true) (ht' : t'.trc.isSome = true) : t.control = t'.control := by
  have hp' := phase_eq_of_control hc
  have hrst' := rst_eq_of_control hc
  cases h with
  | reset => simp at ht
  | noCommand => simp at ht
  | held => simp at ht
  | notTaken => simp at ht
  | rspack => simp at ht
  | accept c hpres =>
    rw [h'.unique (.accept c (presents_of_control hc hpres)), control_accept, hc, ← control_accept]
  | block r xs hrst hp hr hm =>
    obtain ⟨r', hr', hctl⟩ := call_of_control hc hr
    obtain ⟨xs', rfl⟩ := h'.eq_mixed ht' (hrst'.trans hrst) (hp'.trans hp) hr' (rem_eq_of_control hctl ▸ hm)
    rw [control_mixed, hc, hctl, ← control_mixed s' r' xs']
  | tail r xs hrst hp hr hm =>
    obtain ⟨r', hr', hctl⟩ := call_of_control hc hr
    obtain ⟨xs', rfl⟩ := h'.eq_folded ht' (hrst'.trans hrst) (hp'.trans hp) hr' (rem_eq_of_control hctl ▸ hm)
    rw [control_folded, hc, hctl, ← control_folded s' r' xs']
  | final r hrst hp hr =>
    obtain ⟨r', hr', hctl⟩ := call_of_control hc hr
    rw [h'.unique (.final r' (hrst'.trans hrst) (hp'.trans hp) hr'), control_avalanched, hc, hctl,
      ← control_avalanched]
  | out r hrst hp hr =>
    obtain ⟨r', hr', hctl⟩ := call_of_control hc hr
    rw [h'.unique (.out r' (hrst'.trans hrst) (hp'.trans hp) hr'), control_paired, hc, hctl, ← control_paired]

/-- Settles O47: the two steps complete nothing, or the same micro-operation. -/
theorem messageBytesNeverSteerTheSequencer : Obligations.MessageBytesNeverSteerTheSequencer := by
  intro s s' t t' hc hstep hstep' ht
  have h := transition_of_step hstep
  have h' := transition_of_step hstep'
  cases hsome : t.trc with
  | none =>
    have hnone' : t'.trc = none := by simpa [hsome] using ht.symm
    rw [h.eq_silent hsome, h'.eq_silent hnone', control_silent, hc, ← control_silent]
  | some code => exact control_eq_of_pulse hc h h' (by simp [hsome]) (by rw [← ht, hsome]; rfl)

end Sys2Proof.Machine
end

section
/-! The message memory as data (20_memory.md R50): the canonical form is unique, and a message placed is answered. -/

namespace Sys2Proof.Machine

variable {lo hi o : Nat} {x : Byte} {m m' : Memory}

/-! ### The canonical form is unique -/

theorem Memory.risingIn_cons_iff :
    Memory.risingIn lo hi ((o, x) :: m) = true ↔ lo ≤ o ∧ o < hi ∧ Memory.risingIn (o + 1) hi m = true := by
  simp [risingIn, and_assoc]

/-- What a rising memory answers lies at or above its first possible offset. -/
theorem Memory.le_of_read (h : Memory.risingIn lo hi m = true) (hx : m.read o = some x) : lo ≤ o := by
  by_contra hlt
  simp [read_below h (Nat.lt_of_not_le hlt)] at hx

theorem Memory.read_cons_self (m : Memory) (o : Nat) (x : Byte) : Memory.read ((o, x) :: m) o = some x := by
  simp [read]

theorem Memory.read_cons_other {p : Nat} (m : Memory) (x : Byte) (h : o ≠ p) :
    Memory.read ((o, x) :: m) p = m.read p := by
  simp [read, h]

/-- The answers of a memory behind its first entry. -/
theorem Memory.read_tail (h : Memory.risingIn (o + 1) hi m = true) (p : Nat) :
    m.read p = if p = o then none else Memory.read ((o, x) :: m) p := by
  split
  · next hp => exact read_below h (by omega)
  · next hp => exact (read_cons_other m x (Ne.symm hp)).symm

/-- Rising memories that answer alike are equal: both start at the first offset answered, with its byte. -/
theorem Memory.eq_of_read_eq {lo' : Nat} (h : Memory.risingIn lo hi m = true) (h' : Memory.risingIn lo' hi m' = true)
    (heq : ∀ p, m.read p = m'.read p) : m = m' := by
  induction m generalizing lo lo' m' with
  | nil =>
    cases m' with
    | nil => rfl
    | cons e m' => simpa [read] using heq e.1
  | cons e m ih =>
    obtain ⟨o, x⟩ := e
    have hread : m'.read o = some x := (heq o).symm.trans (read_cons_self m o x)
    cases m' with
    | nil => simp [read] at hread
    | cons e' m' =>
      obtain ⟨o', x'⟩ := e'
      obtain ⟨-, hlt, hm⟩ := risingIn_cons_iff.mp h
      obtain ⟨-, hlt', hm'⟩ := risingIn_cons_iff.mp h'
      have hread' : Memory.read ((o, x) :: m) o' = some x' := (heq o').trans (read_cons_self m' o' x')
      have hle : o' ≤ o := le_of_read (risingIn_cons_iff.mpr ⟨Nat.le_refl _, hlt', hm'⟩) hread
      have hge : o ≤ o' := le_of_read (risingIn_cons_iff.mpr ⟨Nat.le_refl _, hlt, hm⟩) hread'
      obtain rfl : o' = o := Nat.le_antisymm hle hge
      obtain rfl : x' = x := Option.some.inj ((read_cons_self m' o' x').symm.trans hread)
      rw [ih hm hm' fun p => by rw [read_tail hm p, read_tail hm' p, heq p]]

/-- Settles O59: a canonical memory rises from 0 to the end of the message space. -/
theorem canonicalMemoriesAreEqualAsData : Obligations.CanonicalMemoriesAreEqualAsData := fun _ _ _ h h' heq =>
  Memory.eq_of_read_eq h h' heq

/-! ### A message placed -/

/-- Outside the bytes placed nothing changes. -/
theorem Memory.read_writeAll_outside {p : Nat} (m : Memory) (vs : List Byte) (h : p < o ∨ o + vs.length ≤ p) :
    (m.writeAll o vs).read p = m.read p := by
  induction vs generalizing m o with
  | nil => rfl
  | cons v vs ih =>
    simp only [List.length_cons] at h
    rw [writeAll, ih (m.write o v) (by omega), read_write_other m v (by omega)]

/-- The bytes placed are answered at their offsets. -/
theorem Memory.read_writeAll {i : Nat} (m : Memory) (vs : List Byte) (hi : i < vs.length) :
    (m.writeAll o vs).read (o + i) = vs[i]? := by
  induction vs generalizing m o i with
  | nil => exact absurd hi (Nat.not_lt_zero i)
  | cons v vs ih =>
    cases i with
    | zero =>
      rw [writeAll, read_writeAll_outside _ vs (.inl (by omega)), Nat.add_zero, read_write_same,
        List.getElem?_cons_zero]
    | succ i =>
      rw [writeAll, show o + (i + 1) = o + 1 + i by omega, ih (m.write o v) (Nat.lt_of_succ_lt_succ hi),
        List.getElem?_cons_succ]

theorem answers_load (s : State) (msg : List Byte) (c : Command) : (s.load msg c).answers msg := fun i hi => by
  have h := Memory.read_writeAll (o := 0) s.mem msg hi
  rwa [Nat.zero_add] at h

/-- Settles O60: inside the message, behind it, and the canonical form. -/
theorem placedMessageIsAnswered : Obligations.PlacedMessageIsAnswered := fun s msg c hlen =>
  ⟨answers_load s msg c, fun _ ho => Memory.read_writeAll_outside s.mem msg (.inr (by omega)),
    fun hwf => Memory.wf_writeAll msg hwf (by omega)⟩

end Sys2Proof.Machine
end

section
/-! The function of a call (45_output.md R162): the accumulators that the steps make are those of `hashPair`. -/

namespace Sys2Proof.Machine

variable {msg : List Byte} {c : Command}

/-! ### Blocks and tail of a message, taken from slices of it -/

/-- As `sliceOf_sliceOf`, where the inner slice may also be taken past the end with no byte left. -/
theorem sliceOf_sliceOf_of_le_sub (xs : List Byte) (o n p m : Nat) (h : m ≤ n - p) :
    sliceOf (sliceOf xs o n) p m = sliceOf xs (o + p) m := by
  obtain rfl | hm := Nat.eq_zero_or_pos m
  · rfl
  · exact sliceOf_sliceOf xs o n p m (by omega)

/-- A block of the message is its three words. -/
theorem mixBytes_sliceOf (t : Acc) (o : Nat) :
    mixBytes t (sliceOf msg o 12) =
      blockmix t (partLe (sliceOf msg o 4)) (partLe (sliceOf msg (o + 4) 4)) (partLe (sliceOf msg (o + 8) 4)) := by
  rw [mixBytes, sliceOf_sliceOf _ _ _ _ _ (by decide), sliceOf_sliceOf _ _ _ _ _ (by decide),
    sliceOf_sliceOf _ _ _ _ _ (by decide), Nat.add_zero]

/-- The tail of the message is its three words, each of the bytes that are left for it. -/
theorem tailFold_sliceOf (t : Acc) (o r : Nat) :
    tailFold t r (sliceOf msg o r) =
      { a := t.a + partLe (sliceOf msg o (min r 4))
        b := t.b + partLe (sliceOf msg (o + 4) (min (r - 4) 4))
        c := t.c + partLe (sliceOf msg (o + 8) (r - 8)) } := by
  simp only [tailFold]
  rw [sliceOf_sliceOf_of_le_sub _ _ _ _ _ (Nat.min_le_left r 4), sliceOf_sliceOf_of_le_sub _ _ _ _ _ (by omega),
    sliceOf_sliceOf_of_le_sub _ _ _ _ _ (Nat.le_refl _), Nat.add_zero]

/-- One block more, mixed in behind the others. -/
theorem blocksFrom_succ (o : Nat) (t : Acc) (n : Nat) :
    blocksFrom msg o t (n + 1) = mixBytes (blocksFrom msg o t n) (sliceOf msg (o + 12 * n) 12) := by
  induction n generalizing o t with
  | zero => rfl
  | succ n ih =>
    rw [blocksFrom, ih, blocksFrom, Nat.mul_succ, Nat.add_assoc, Nat.add_comm 12]

theorem blocksFrom_eq_afterBlocks (t : Acc) (n : Nat) : blocksFrom msg 0 t n = afterBlocks msg t n := by
  induction n with
  | zero => rfl
  | succ n ih => rw [blocksFrom_succ, ih, mixBytes_sliceOf, Nat.zero_add, afterBlocks]

/-- From the registers INIT makes, the steps to come give the accumulators of R162. -/
theorem afterMessage_initCall (hl : c.len = msg.length) :
    (initCall c).afterMessage msg = afterTail msg (initAcc c) := by
  simp only [Call.afterMessage, initCall_rem, initCall_off, initCall_acc, blocksFrom_eq_afterBlocks, Nat.zero_add,
    tailFold_sliceOf, afterTail, hl]

theorem promise_initCall (hl : c.len = msg.length) :
    (initCall c).promise msg = hashPair msg c.seed1 c.seed2 := by
  rw [Call.promise, afterMessage_initCall hl, initCall_nf, needFinal, hl]
  simp only [decide_eq_true_eq, hashPair, Acc.pair, initAcc, hl]
  rfl

end Sys2Proof.Machine
end

section
/-! Whole calls over an answered message (45_output.md R162, R202): the state behind the last micro-operation. -/

namespace Sys2Proof.Machine

variable {s : State} {msg : List Byte} {r : Call} {c : Command} {k : Nat}

/-- The state behind OUT: the pair stands in RESP, the registers of the call are dead. -/
def State.responding (s : State) (p : Result) : State :=
  { s with phase := .resp, call := none, result := some p, trc := some 0x50#8, reads := [] }

@[simp] theorem State.rspPort_responding (s : State) (p : Result) : (s.responding p).rspPort = some p := rfl

theorem stepN_outp (hrst : s.rst = false) (hp : s.phase = .outp) (hr : s.call = some r) :
    stepN 1 s = .next (s.responding r.acc.pair) := stepN_succ (k := 0) (step_of_outp hrst hp hr)

theorem stepN_fin (hrst : s.rst = false) (hp : s.phase = .fin) (hr : s.call = some r) :
    stepN 2 s = .next (s.responding (finalround r.acc).pair) :=
  (stepN_succ (step_of_fin hrst hp hr)).trans (stepN_outp (r := { r with acc := finalround r.acc }) hrst rfl rfl)

/-- Behind TAIL the call ends with the pair that NF selects. -/
theorem stepN_tailPhase (hrst : s.rst = false) (hp : s.phase = tailPhase r.nf) (hr : s.call = some r) :
    stepN (if r.nf then 2 else 1) s =
      .next (s.responding (if r.nf then finalround r.acc else r.acc).pair) := by
  cases hnf : r.nf with
  | true => exact stepN_fin hrst (by rw [hp, hnf]; rfl) hr
  | false => exact stepN_outp hrst (by rw [hp, hnf]; rfl) hr

/-- From TAIL on a call ends in the promised pair. -/
theorem State.Reading.stepN_tail (h : s.Reading msg r) (hm : r.rem < 12) (hk : uopCount r.rem = k + 1) :
    stepN k s = .next (s.responding (r.promise msg)) := by
  obtain rfl : k = (if r.nf then 2 else 1) + 1 := by
    rw [uopCount_of_lt hm, ← h.nf] at hk
    exact (Nat.succ.inj hk).symm
  have hend := stepN_tailPhase (s := s.tailDone r msg) (r := r.tailDone msg) h.rst rfl rfl
  rw [stepN_succ (h.step_tail hm), Call.promise, Call.afterMessage_of_lt hm]
  exact hend

/-- A call that is reading ends in the promised pair after as many micro-operations as its remaining length gives. -/
theorem State.Reading.stepN_rest (h : s.Reading msg r) (hk : uopCount r.rem = k + 1) :
    stepN k s = .next (s.responding (r.promise msg)) := by
  induction k generalizing s r with
  | zero => exact absurd hk (one_lt_uopCount r.rem).ne'
  | succ k ih =>
    by_cases hm : 12 ≤ r.rem
    · have hk' : uopCount (r.blockDone msg).rem = k + 1 := Nat.succ.inj ((uopCount_sub_block hm).symm.trans hk)
      rw [stepN_succ (h.step_block hm), ih (h.blockDone hm) hk', Call.promise_blockDone hm]
      rfl
    · exact h.stepN_tail (Nat.lt_of_not_le hm) hk

/-- A presented command over an answered message ends in its pair. -/
theorem stepN_of_presents (hp : s.presents c) (hl : c.len = msg.length) (ha : s.answers msg) :
    stepN (uopCount c.len) s = .next ((s.accept c).responding (hashPair msg c.seed1 c.seed2)) := by
  obtain ⟨k, hk⟩ := Nat.exists_eq_add_of_lt (Nat.zero_lt_of_lt (one_lt_uopCount c.len))
  rw [Nat.zero_add] at hk
  rw [hk, stepN_succ (step_of_presents hp), (reading_accept hp hl ha).stepN_rest hk, promise_initCall hl]

/-- Settles O48: of the waiting commands the acceptance takes this one. -/
theorem callComputesHashPair : Obligations.CallComputesHashPair := by
  intro s msg seed1 seed2 hp ha
  rw [stepN_of_presents hp rfl ha, State.accept, takeCommand_of_presents hp]
  rfl

/-! ### Behind each block -/

/-- After `j` blocks a call is still reading, `12 · j` further on. -/
theorem State.Reading.stepN_blocks {j : Nat} (h : s.Reading msg r) (hj : j ≤ r.rem / 12) :
    ∃ t u, stepN j s = .next t ∧ t.Reading msg u ∧ u.off = r.off + 12 * j := by
  induction j generalizing s r with
  | zero => exact ⟨s, r, rfl, h, rfl⟩
  | succ j ih =>
    have hm : 12 ≤ r.rem := by omega
    obtain ⟨t, u, hrun, ht, hu⟩ := ih (h.blockDone hm) (by simp; omega)
    exact ⟨t, u, (stepN_succ (h.step_block hm)).trans hrun, ht, by rw [hu, Call.blockDone_off]; omega⟩

/-- Settles O38: INIT starts at offset 0, and every block moves 12 on. -/
theorem offsetAndRemainderAddUpToTheLength : Obligations.OffsetAndRemainderAddUpToTheLength := by
  intro s c msg j hp hl ha hj
  obtain ⟨t, u, hrun, ht, hu⟩ := (reading_accept hp hl ha).stepN_blocks (j := j) hj
  rw [initCall_off, Nat.zero_add] at hu
  have hnf : u.nf = needFinal c.len := by
    rw [ht.nf, hl, ← ht.length, needFinal_add_of_mod (by omega)]
  refine ⟨t, u, ?_, ht.phase, ht.call, hu, ht.length.trans hl.symm, ?_⟩
  · rw [Nat.add_comm, stepN_succ (step_of_presents hp), hrun]
  · simp [hnf, needFinal_eq_not]

/-! ### Particular calls -/

/-- Settles O58: the loaded message is answered and its command presented. -/
theorem loadedCommandAnswersFromReset : Obligations.LoadedCommandAnswersFromReset := by
  intro msg seed1 seed2 hlen
  have hp : (State.reset.load msg ⟨seed1, seed2, msg.length⟩).presents ⟨seed1, seed2, msg.length⟩ :=
    ⟨rfl, rfl, hlen, rfl⟩
  exact ⟨_, stepN_of_presents hp rfl (answers_load _ msg _), State.rspPort_responding _ _⟩

theorem sliceOf_replicate_zero (n o m : Nat) :
    sliceOf (List.replicate n 0#8) o m = List.replicate (min m (n - o)) 0#8 := by
  simp [sliceOf]

@[simp] theorem partLeFrom_replicate_zero (k n : Nat) : partLeFrom k (List.replicate n 0#8) = 0#32 := by
  induction n generalizing k with
  | zero => rfl
  | succ n ih => rw [List.replicate_succ, partLeFrom, ih, byteAt_zero, BitVec.add_zero]

/-- Every word of an all-zero message is zero. -/
@[simp] theorem partLe_sliceOf_zero (n o m : Nat) : partLe (sliceOf (List.replicate n 0#8) o m) = 0#32 := by
  rw [sliceOf_replicate_zero, partLe, partLeFrom_replicate_zero]

theorem afterBlocks_zero (n k : Nat) :
    afterBlocks (List.replicate n 0#8) ⟨0#32, 0#32, 0#32⟩ k = ⟨0#32, 0#32, 0#32⟩ := by
  induction k with
  | zero => rfl
  | succ k ih => simp [afterBlocks, ih, blockmix, mixround_zero]

/-- Zero accumulators stay zero over an all-zero message, through blocks, tail and avalanche. -/
theorem hashPair_zero {n : Nat} {seed1 : Word} (h : 0xdeadbeef#32 + BitVec.ofNat 32 n + seed1 = 0#32) :
    hashPair (List.replicate n 0#8) seed1 0#32 = ⟨0#32, 0#32⟩ := by
  simp [hashPair, afterTail, h, afterBlocks_zero, finalround_zero]

/-- Settles O57: the call ends in `hashPair` of the zero bytes. -/
theorem allZeroCallReturnsZero : Obligations.AllZeroCallReturnsZero := by
  intro s n seed1 hzero hp ha
  have hrun := stepN_of_presents hp (List.length_replicate (n := n) (a := 0#8)).symm ha
  exact ⟨_, hrun, by rw [State.rspPort_responding, hashPair_zero hzero]⟩

end Sys2Proof.Machine
end

section
/-! Progress of a call (41_seed_driver_init.md section 3, 60_exceptions.md section 10): every step of a call is held
before an unanswered byte, or brings the response nearer. -/

namespace Sys2Proof.Machine

variable {s t : State} {r : Call}

/-- A bound on the steps from here to RESP while no read is held: the blocks left, TAIL, FINAL and OUT (R113). -/
def State.stepsLeft (s : State) : Nat :=
  match s.phase, s.call with
  | .blocks, some r => r.rem / 12 + 3
  | .fin, _ => 2
  | .outp, _ => 1
  | _, _ => 0

theorem stepsLeft_congr (hp : t.phase = s.phase) (hc : t.call = s.call) : t.stepsLeft = s.stepsLeft := by
  simp only [State.stepsLeft, hp, hc]

theorem stepsLeft_of_blocks (hp : s.phase = .blocks) (hr : s.call = some r) : s.stepsLeft = r.rem / 12 + 3 := by
  simp [State.stepsLeft, hp, hr]

theorem stepsLeft_of_fin (hp : s.phase = .fin) : s.stepsLeft = 2 := by
  simp [State.stepsLeft, hp]

theorem stepsLeft_of_outp (hp : s.phase = .outp) : s.stepsLeft = 1 := by
  simp [State.stepsLeft, hp]

theorem stepsLeft_of_resp (hp : s.phase = .resp) : s.stepsLeft = 0 := by
  simp [State.stepsLeft, hp]

theorem stepsLeft_tailPhase {nf : Bool} (hp : s.phase = tailPhase nf) : s.stepsLeft ≤ 2 := by
  cases nf with
  | true => exact (stepsLeft_of_fin hp).le
  | false => rw [stepsLeft_of_outp hp]; decide

/-- In a call a transition without reset is held before a byte the port requests, or brings RESP nearer. -/
theorem Transition.held_or_nearer (h : Transition s t) (hrst : s.rst = false) (hidle : s.phase ≠ .idle)
    (hresp : s.phase ≠ .resp) : (s.msgPort ≠ none ∧ t = s.quiet) ∨ t.stepsLeft < s.stepsLeft := by
  cases h with
  | reset hr => simp [hrst] at hr
  | noCommand _ hp => exact absurd hp hidle
  | accept c hc => exact absurd (phase_of_presents hc) hidle
  | held r o _ hp hr ho => exact .inl ⟨by rw [msgPort_eq_some_iff.mpr ⟨hp, r, hr, ho⟩]; simp, rfl⟩
  | block r xs _ hp hr hm =>
    refine .inr ?_
    rw [stepsLeft_of_blocks hp hr, stepsLeft_of_blocks (s := s.mixed r xs) hp rfl]
    simp only
    omega
  | tail r xs _ hp hr =>
    refine .inr ?_
    rw [stepsLeft_of_blocks hp hr]
    exact Nat.lt_of_le_of_lt (stepsLeft_tailPhase rfl) (by omega)
  | final r _ hp =>
    refine .inr ?_
    rw [stepsLeft_of_fin hp, stepsLeft_of_outp rfl]
    decide
  | out r _ hp =>
    refine .inr ?_
    rw [stepsLeft_of_outp hp, stepsLeft_of_resp rfl]
    decide
  | notTaken _ hp => exact absurd hp hresp
  | rspack p _ hp => exact absurd hp hresp

/-- Registers that stay live keep the end of the message and never move back. -/
theorem Transition.call_ends_alike {u : Call} (h : Transition s t) (hp : s.phase ≠ .idle) (hr : s.call = some r)
    (hu : t.call = some u) : r.off ≤ u.off ∧ u.off + u.rem = r.off + r.rem := by
  cases h with
  | reset => cases hu
  | noCommand => cases hr.symm.trans hu; exact ⟨Nat.le_refl _, rfl⟩
  | accept c hc => exact absurd (phase_of_presents hc) hp
  | held => cases hr.symm.trans hu; exact ⟨Nat.le_refl _, rfl⟩
  | block r' xs _ _ hr' hm =>
    cases hr.symm.trans hr'
    cases hu
    simp only
    omega
  | tail r' xs _ _ hr' =>
    cases hr.symm.trans hr'
    cases hu
    simp
  | final r' _ _ hr' => cases hr.symm.trans hr'; cases hu; exact ⟨Nat.le_refl _, rfl⟩
  | out => cases hu
  | notTaken => cases hr.symm.trans hu; exact ⟨Nat.le_refl _, rfl⟩
  | rspack => cases hr.symm.trans hu; exact ⟨Nat.le_refl _, rfl⟩

/-- Where every due byte is answered the port requests nothing. -/
theorem msgPort_eq_none_of_answered (hr : s.call = some r)
    (ha : ∀ i, i < dueBytes r.rem → (s.mem.read (r.off + i)).isSome = true) : s.msgPort = none := by
  refine Option.eq_none_iff_forall_ne_some.mpr fun o ho => ?_
  obtain ⟨-, u, hu, hread⟩ := msgPort_eq_some_iff.mp ho
  cases hr.symm.trans hu
  obtain ⟨i, hi, rfl, -, hnone, -⟩ := readMsg_unanswered_iff.mp hread
  simpa [hnone] using ha i hi

/-! ### What the invariant says of live and dead registers -/

/-- Live registers mean a call in progress: BLOCKS, FIN or OUTP. -/
theorem State.Inv.phase_of_call (h : s.Inv) (hr : s.call = some r) : s.phase ≠ .idle ∧ s.phase ≠ .resp := by
  constructor <;> intro hp <;> have hregs := h.regs_of_phase hp <;> simp [hr] at hregs

/-- Dead registers outside IDLE mean RESP, where the result is live. -/
theorem State.Inv.resp_of_call_none (h : s.Inv) (hp : s.phase ≠ .idle) (hr : s.call = none) :
    s.phase = .resp ∧ s.result.isSome = true := by
  cases hphase : s.phase with
  | idle => exact absurd hphase hp
  | resp =>
    obtain ⟨-, q, hq⟩ := phaseInv_resp_iff.mp (h.regs_of_phase hphase)
    exact ⟨rfl, by simp [hq]⟩
  | blocks => simpa [hr] using h.regs_of_phase hphase
  | fin => simpa [hr] using h.regs_of_phase hphase
  | outp => simpa [hr] using h.regs_of_phase hphase

theorem tailPhase_ne_idle {nf : Bool} : tailPhase nf ≠ .idle := by
  cases nf <;> decide

/-- Without reset no transition of a call leads to IDLE. -/
theorem Transition.phase_ne_idle (h : Transition s t) (hrst : s.rst = false) (hidle : s.phase ≠ .idle)
    (hresp : s.phase ≠ .resp) : t.phase ≠ .idle := by
  cases h with
  | reset hr => simp [hrst] at hr
  | noCommand _ hp => exact absurd hp hidle
  | accept => simp
  | held => exact hidle
  | block => exact hidle
  | tail r => exact tailPhase_ne_idle
  | final => simp
  | out => simp
  | notTaken => exact hidle
  | rspack p _ hp => exact absurd hp hresp

/-! ### A call whose bytes are answered -/

/-- With every remaining byte answered RESP is reached within the steps left. -/
theorem State.Inv.reaches_resp (hi : s.Inv) (hrst : s.rst = false) (hr : s.call = some r)
    (ha : ∀ o, r.off ≤ o → o < r.off + r.rem → (s.mem.read o).isSome = true) :
    ∃ k t, k ≤ s.stepsLeft ∧ stepN k s = .next t ∧ t.phase = .resp ∧ t.result.isSome = true := by
  induction hn : s.stepsLeft using Nat.strongRecOn generalizing s r with
  | ind n ih =>
    subst hn
    obtain ⟨hidle, hresp⟩ := hi.phase_of_call hr
    have hport : s.msgPort = none := msgPort_eq_none_of_answered hr fun i hlt => by
      have := (dueBytes_le r.rem).1
      exact ha _ (by omega) (by omega)
    obtain ⟨t, h⟩ := hi.exists_transition
    obtain ⟨hheld, -⟩ | hnear := h.held_or_nearer hrst hidle hresp
    · exact absurd hport hheld
    cases hu : t.call with
    | none =>
      obtain ⟨hp, hres⟩ := (h.inv hi).resp_of_call_none (h.phase_ne_idle hrst hidle hresp) hu
      exact ⟨1, t, by omega, stepN_succ (k := 0) (step_of_transition h), hp, hres⟩
    | some u =>
      obtain ⟨hmem, -, hrst', -⟩ := h.frame
      obtain ⟨hoff, hend⟩ := h.call_ends_alike hidle hr hu
      obtain ⟨k, t', hk, hrun, hp, hres⟩ := ih t.stepsLeft hnear (h.inv hi) (hrst'.trans hrst) hu
        (fun o ho ho' => hmem ▸ ha o (by omega) (by omega)) rfl
      exact ⟨k + 1, t', by omega, (stepN_succ (step_of_transition h)).trans hrun, hp, hres⟩

/-- From a call no more steps are left than its blocks and three. -/
theorem stepsLeft_le (hr : s.call = some r) : s.stepsLeft ≤ r.rem / 12 + 3 := by
  cases hp : s.phase with
  | blocks => exact (stepsLeft_of_blocks hp hr).le
  | fin => rw [stepsLeft_of_fin hp]; omega
  | outp => rw [stepsLeft_of_outp hp]; omega
  | idle => simp [State.stepsLeft, hp]
  | resp => rw [stepsLeft_of_resp hp]; omega

/-- Settles O54: every step of an answered call brings RESP nearer. -/
theorem everyAnsweredCallEnds : Obligations.EveryAnsweredCallEnds := by
  intro s r hi hrst hr ha
  obtain ⟨k, t, hk, hrest⟩ := (inv_iff.mp hi).reaches_resp hrst hr ha
  exact ⟨k, t, hk.trans (stepsLeft_le hr), hrest⟩

/-! ### A byte that stays unanswered -/

/-- A call in BLOCKS that ends at `e` and has the unanswered offset `o` still to read. -/
structure State.WaitsFor (s : State) (o e : Nat) : Prop where
  inv : s.Inv
  rst : s.rst = false
  phase : s.phase = .blocks
  call : ∃ u, s.call = some u ∧ u.off ≤ o ∧ o < u.off + u.rem ∧ u.off + u.rem = e
  unanswered : s.mem.read o = none

/-- Reads that were answered do not pass an unanswered offset. -/
theorem le_of_unanswered {o p n : Nat} {xs : List Byte} (hx : s.readMsg p n = .ok xs) (ho : s.mem.read o = none)
    (hp : p ≤ o) : p + n ≤ o := by
  by_contra hlt
  obtain ⟨hlen, hread⟩ := readMsg_ok_iff.mp hx
  obtain ⟨-, hri⟩ := hread (o - p) (by omega)
  rw [Nat.add_sub_cancel' hp, ho, List.getElem?_eq_getElem (by omega)] at hri
  cases hri

/-- Every step keeps waiting: BLOCK stays before the byte, and TAIL would have to read it. -/
theorem Transition.waitsFor {o e : Nat} (h : Transition s t) (hs : s.WaitsFor o e) : t.WaitsFor o e := by
  obtain ⟨hi, hrst, hp, ⟨u, hu, hlo, hhi, he⟩, ho⟩ := hs
  have hinv := h.inv hi
  cases h with
  | reset hr => simp [hrst] at hr
  | noCommand _ hidle => simp [hp] at hidle
  | accept c hc => simp [phase_of_presents hc] at hp
  | held => exact ⟨hinv, hrst, hp, ⟨u, hu, hlo, hhi, he⟩, ho⟩
  | block r xs _ _ hr hm hx =>
    cases hu.symm.trans hr
    have hle := le_of_unanswered hx ho hlo
    exact ⟨hinv, hrst, hp, ⟨_, rfl, hle, by simp only; omega, by simp only; omega⟩, ho⟩
  | tail r xs _ _ hr hm hx =>
    cases hu.symm.trans hr
    have hle := le_of_unanswered hx ho hlo
    omega
  | final _ _ hfin => simp [hp] at hfin
  | out _ _ hout => simp [hp] at hout
  | notTaken _ hresp => simp [hp] at hresp
  | rspack _ _ hresp => simp [hp] at hresp

theorem State.WaitsFor.stepN {o e : Nat} (hs : s.WaitsFor o e) (k : Nat) :
    ∃ t, stepN k s = .next t ∧ t.WaitsFor o e := by
  induction k generalizing s with
  | zero => exact ⟨s, rfl, hs⟩
  | succ k ih =>
    obtain ⟨t, h⟩ := hs.inv.exists_transition
    obtain ⟨t', hrun, ht'⟩ := ih (h.waitsFor hs)
    exact ⟨t', (stepN_succ (step_of_transition h)).trans hrun, ht'⟩

/-- Settles O55: waiting before the byte is kept by every number of steps. -/
theorem unansweredByteHoldsTheCallForEver : Obligations.UnansweredByteHoldsTheCallForEver := by
  intro s r o k hi hrst hp hr hlo hhi ho
  have hs : s.WaitsFor o (r.off + r.rem) := ⟨inv_iff.mp hi, hrst, hp, ⟨r, hr, hlo, hhi, rfl⟩, ho⟩
  obtain ⟨t, hrun, ht⟩ := hs.stepN k
  obtain ⟨u, hu, hulo, -, hue⟩ := ht.call
  exact ⟨t, u, hrun, ht.phase, by simp [State.busy, ht.phase], rspPort_eq_none_of_ne_resp (by simp [ht.phase]), hu,
    hulo, hue⟩

end Sys2Proof.Machine
end

section
/-! Histories (70_reset_and_hazards.md R195 to R202): while the accepted call lasts it will give `hashPair` of its
message, whenever the engine steps and whatever the host does in between. -/

namespace Sys2Proof.Machine

variable {run : Nat → State} {move : Nat → Option HostMove} {s t : State} {c : Command} {msg : List Byte} {p : Result}
  {n m o : Nat}

/-- Between two moments lies a transition of the engine, or a move of the host that keeps duty 2. -/
theorem History.next (h : History run move) (n : Nat) :
    Transition (run n) (run (n + 1)) ∨
      ∃ g : HostMove, g.keepsMessageStill (run n) = true ∧ run (n + 1) = g.apply (run n) := by
  cases hm : move n with
  | none => exact .inl (transition_of_step (h.engine n hm))
  | some g => exact .inr ⟨g, h.host n g hm⟩

theorem History.transition (h : History run move) (hm : move n = none) : Transition (run n) (run (n + 1)) :=
  transition_of_step (h.engine n hm)

theorem StillInCall.mono (h : StillInCall run n) (hm : m ≤ n) : StillInCall run m := fun k h0 hk =>
  h k h0 (hk.trans hm)

theorem StillInCall.succ (h : StillInCall run n) (hp : (run (n + 1)).phase ≠ .idle) : StillInCall run (n + 1) := by
  intro k h0 hk
  obtain hk | rfl := Nat.le_or_eq_of_le_succ hk
  · exact h k h0 hk
  · exact hp

/-! ### The pair of the accepted call -/

/-- The accepted command will be answered with its pair. -/
theorem promises_accept (hl : c.len = msg.length) : (s.accept c).Promises msg (hashPair msg c.seed1 c.seed2) := by
  refine ⟨?_, fun r hr => ?_⟩
  · rw [promised_of_blocks (s.accept_phase c) (s.accept_call c), promise_initCall hl]
  · cases hr
    rw [initCall_off, initCall_rem, Nat.zero_add, hl]

/-- A transition that does not lead to IDLE keeps the pair. -/
theorem Transition.promises_of_busy (h : Transition s t) (hs : s.Promises msg p)
    (ha : s.call.isSome = true → s.agrees msg) (ht : t.phase ≠ .idle) : t.Promises msg p := by
  cases hrst : s.rst with
  | true =>
    rw [h.unique (.reset hrst)] at ht
    exact absurd s.applyReset_phase ht
  | false =>
    obtain hkept | ⟨-, -, -, hidle⟩ := h.promises hrst hs ha
    · exact hkept
    · exact absurd hidle ht

/-- From the moment after the acceptance on, while the call lasts, its pair is the one promised. -/
theorem History.promises (h : History run move) (hacc : Accepts run move c) (hl : c.len = msg.length)
    (ht : AnswersTruthfully run msg) (hn : 1 ≤ n) (hs : StillInCall run n) :
    (run n).Promises msg (hashPair msg c.seed1 c.seed2) := by
  induction n, hn using Nat.le_induction with
  | base =>
    obtain ⟨hpres, hm⟩ := hacc
    rw [(h.transition hm).unique (.accept c hpres)]
    exact promises_accept hl
  | succ n hn ih =>
    have hs' := hs.mono (Nat.le_succ n)
    obtain htr | ⟨g, -, hg⟩ := h.next n
    · exact htr.promises_of_busy (ih hs') (ht n hs') (hs (n + 1) n.succ_pos (Nat.le_refl _))
    · rw [hg]
      exact (ih hs').apply g

/-- What the response port shows while the call lasts is `hashPair` of its message. -/
theorem History.rspPort_eq (h : History run move) (hacc : Accepts run move c) (hl : c.len = msg.length)
    (ht : AnswersTruthfully run msg) (hs : StillInCall run n) (hp : (run n).rspPort = some p) :
    p = hashPair msg c.seed1 c.seed2 := by
  have hresp : (run n).phase = .resp := by
    by_contra hne
    simp [rspPort_eq_none_of_ne_resp hne] at hp
  have hn : 1 ≤ n := by
    obtain rfl | hn := Nat.eq_zero_or_pos n
    · simp [phase_of_presents hacc.1] at hresp
    · exact hn
  have hpair := (h.promises hacc hl ht hn hs).1
  rw [promised_of_resp hresp, ← rspPort_of_resp hresp, hp] at hpair
  exact Option.some.inj hpair

/-- Settles O51: in both clauses both responses are `hashPair` of the message. -/
theorem responseIsIndependentOfHistory : Obligations.ResponseIsIndependentOfHistory := by
  refine ⟨fun s s' c msg hl hp hp' ha ha' => ?_, ?_⟩
  · exact ⟨_, _, hashPair msg c.seed1 c.seed2, stepN_of_presents hp hl ha, stepN_of_presents hp' hl ha',
      State.rspPort_responding _ _, State.rspPort_responding _ _⟩
  · intro run run' move move' c msg n n' r r' h h' hacc hacc' hl ht ht' hs hs' hr hr'
    rw [h.rspPort_eq hacc hl ht hs hr, h'.rspPort_eq hacc' hl ht' hs' hr']

end Sys2Proof.Machine
end

section
/-! Liveness (60_exceptions.md section 10, 70_reset_and_hazards.md section 3): under the duties of the host the accepted
call reaches RESP, because a call that never came nearer would find all its due bytes answered, and its response is
taken. -/

namespace Sys2Proof.Machine

variable {run : Nat → State} {move : Nat → Option HostMove} {c : Command} {msg : List Byte} {n m N : Nat} {r : Call}

/-- A history without reset that accepts this command and in which the host keeps its duties: the premises of
`Obligations.CallsUnderTheDutiesAreAnsweredAndTaken`. -/
structure DutifulCall (run : Nat → State) (move : Nat → Option HostMove) (c : Command) (msg : List Byte) : Prop where
  history : History run move
  engineRuns : EngineRuns move
  noReset : ∀ n, (run n).rst = false
  inv_zero : (run 0).inv = true
  accepts : Accepts run move c
  length : c.len = msg.length
  truthful : AnswersTruthfully run msg
  reads : AnswersReads run
  takes : TakesResponses run move

namespace DutifulCall

theorem inv (h : DutifulCall run move c msg) (n : Nat) : (run n).Inv := by
  induction n with
  | zero => exact inv_iff.mp h.inv_zero
  | succ n ih =>
    obtain htr | ⟨g, -, hg⟩ := h.history.next n
    · exact htr.inv ih
    · rw [hg]
      exact g.inv ih

theorem promises (h : DutifulCall run move c msg) (hn : 1 ≤ n) (hs : StillInCall run n) :
    (run n).Promises msg (hashPair msg c.seed1 c.seed2) :=
  h.history.promises h.accepts h.length h.truthful hn hs

/-- The moment after the acceptance belongs to the call. -/
theorem stillInCall_one (h : DutifulCall run move c msg) : StillInCall run 1 := by
  intro k h0 hk
  obtain rfl : k = 1 := Nat.le_antisymm hk h0
  obtain ⟨hpres, hm⟩ := h.accepts
  rw [(h.history.transition hm).unique (.accept c hpres)]
  simp

/-- A call that has not reached RESP lasts another moment. -/
theorem stillInCall_succ (h : DutifulCall run move c msg) (hn : 1 ≤ n) (hs : StillInCall run n)
    (hresp : (run n).phase ≠ .resp) : StillInCall run (n + 1) := by
  refine hs.succ ?_
  obtain htr | ⟨g, -, hg⟩ := h.history.next n
  · exact htr.phase_ne_idle (h.noReset n) (hs n hn (Nat.le_refl n)) hresp
  · obtain ⟨hphase, -⟩ := g.frame (run n)
    rw [hg, hphase]
    exact hs n hn (Nat.le_refl n)

/-! ### A call that never comes nearer -/

/-- A call that stays short of RESP from moment 1 on and never comes nearer to it than at moment `N`. -/
structure Stuck (run : Nat → State) (N : Nat) : Prop where
  pos : 1 ≤ N
  busy : ∀ n, 1 ≤ n → StillInCall run n ∧ (run n).phase ≠ .resp
  least : ∀ n, 1 ≤ n → (run N).stepsLeft ≤ (run n).stepsLeft

/-- A call that never reaches RESP has a moment at which it is as near as it ever comes. -/
theorem exists_stuck (h : DutifulCall run move c msg)
    (hno : ∀ n, 1 ≤ n → StillInCall run n → (run n).phase ≠ .resp) : ∃ N, Stuck run N := by
  have hbusy : ∀ n, 1 ≤ n → StillInCall run n := fun n hn => by
    induction n, hn using Nat.le_induction with
    | base => exact h.stillInCall_one
    | succ n hn ih => exact h.stillInCall_succ hn ih (hno n hn ih)
  obtain ⟨N, hN, hmin⟩ := (measure fun n => (run n).stepsLeft).wf.has_min {n | 1 ≤ n} ⟨1, Nat.le_refl 1⟩
  exact ⟨N, hN, fun n hn => ⟨hbusy n hn, hno n hn (hbusy n hn)⟩, fun n hn => Nat.le_of_not_lt (hmin n hn)⟩

/-- Stuck, the call keeps its phase and its registers. -/
theorem Stuck.regs_eq (hst : Stuck run N) (h : DutifulCall run move c msg) (hn : N ≤ n) :
    (run n).phase = (run N).phase ∧ (run n).call = (run N).call := by
  induction n, hn using Nat.le_induction with
  | base => exact ⟨rfl, rfl⟩
  | succ n hn ih =>
    obtain ⟨hphase, hcall⟩ := ih
    have hn1 : 1 ≤ n := hst.pos.trans hn
    obtain ⟨hs, hresp⟩ := hst.busy n hn1
    obtain htr | ⟨g, -, hg⟩ := h.history.next n
    · obtain ⟨-, hq⟩ | hnear := htr.held_or_nearer (h.noReset n) (hs n hn1 (Nat.le_refl n)) hresp
      · rw [hq]
        exact ⟨hphase, hcall⟩
      · have hmin := hst.least (n + 1) n.succ_pos
        rw [stepsLeft_congr hphase hcall] at hnear
        omega
    · obtain ⟨hphase', hcall', -⟩ := g.frame (run n)
      rw [hg, hphase', hcall']
      exact ⟨hphase, hcall⟩

/-- A byte of the stuck call that is answered stays answered. -/
theorem Stuck.answered_mono (hst : Stuck run N) (h : DutifulCall run move c msg) (hr : (run N).call = some r) {o : Nat}
    (ho : o < r.off + r.rem) (hn : N ≤ n) (ha : ((run n).mem.read o).isSome = true) (hm : n ≤ m) :
    ((run m).mem.read o).isSome = true := by
  induction m, hm using Nat.le_induction with
  | base => exact ha
  | succ m hm ih =>
    obtain htr | ⟨g, hk, hg⟩ := h.history.next m
    · obtain ⟨hmem, -⟩ := htr.frame
      rw [hmem]
      exact ih
    · obtain ⟨x, hx⟩ := Option.isSome_iff_exists.mp ih
      obtain ⟨-, hcall⟩ := hst.regs_eq h (hn.trans hm)
      have hlt : o < (run m).callLength := by rwa [State.callLength_of (hcall.trans hr)]
      rw [hg, HostMove.read_kept hk hlt hx]
      rfl

/-- In BLOCKS all due bytes of the stuck call are answered in the end: the port requests them one by one (R199). -/
theorem Stuck.exists_answered (hst : Stuck run N) (h : DutifulCall run move c msg) (hp : (run N).phase = .blocks)
    (hr : (run N).call = some r) {i : Nat} (hi : i ≤ dueBytes r.rem) :
    ∃ m, N ≤ m ∧ ∀ j, j < i → ((run m).mem.read (r.off + j)).isSome = true := by
  have hdue := (dueBytes_le r.rem).1
  induction i with
  | zero => exact ⟨N, Nat.le_refl N, fun j hj => absurd hj (Nat.not_lt_zero j)⟩
  | succ i ih =>
    obtain ⟨m, hm, hans⟩ := ih (by omega)
    obtain ⟨m', hm', ha⟩ : ∃ m', m ≤ m' ∧ ((run m').mem.read (r.off + i)).isSome = true := by
      cases hx : (run m).mem.read (r.off + i) with
      | some x => exact ⟨m, Nat.le_refl m, by simp [hx]⟩
      | none =>
        obtain ⟨hphase, hcall⟩ := hst.regs_eq h hm
        obtain ⟨-, -, hfit, -⟩ := (h.inv m).of_blocks (hphase.trans hp) (hcall.trans hr)
        have hstall := readMsg_first_unanswered (Nat.lt_of_succ_le hi) (by omega) hx hans
        exact h.reads m _ (msgPort_eq_some_iff.mpr ⟨hphase.trans hp, r, hcall.trans hr, hstall⟩)
    refine ⟨m', hm.trans hm', fun j hj => ?_⟩
    obtain hj | rfl := Nat.lt_succ_iff_lt_or_eq.mp hj
    · exact hst.answered_mono h hr (by omega) hm (hans j hj) hm'
    · exact ha

/-- From some moment on the stuck call requests nothing. -/
theorem Stuck.exists_msgPort_none (hst : Stuck run N) (h : DutifulCall run move c msg) :
    ∃ m, N ≤ m ∧ ∀ m', m ≤ m' → (run m').msgPort = none := by
  by_cases hp : (run N).phase = .blocks
  · obtain ⟨r, hr, -⟩ := phaseInv_blocks_iff.mp ((h.inv N).regs_of_phase hp)
    have hdue := (dueBytes_le r.rem).1
    obtain ⟨m, hm, hans⟩ := hst.exists_answered h hp hr (Nat.le_refl _)
    refine ⟨m, hm, fun m' hm' => ?_⟩
    obtain ⟨-, hcall⟩ := hst.regs_eq h (hm.trans hm')
    exact msgPort_eq_none_of_answered (hcall.trans hr) fun i hi =>
      hst.answered_mono h hr (by omega) hm (hans i hi) hm'
  · refine ⟨N, Nat.le_refl N, fun m hm => msgPort_eq_none_of_ne_blocks ?_⟩
    rwa [(hst.regs_eq h hm).1]

/-- No call is stuck: the engine steps once nothing is requested, and that step brings RESP nearer. -/
theorem not_stuck (h : DutifulCall run move c msg) : ¬Stuck run N := fun hst => by
  obtain ⟨m, hm, hport⟩ := hst.exists_msgPort_none h
  obtain ⟨n, hn, hmove⟩ := h.engineRuns m
  have hn1 : 1 ≤ n := hst.pos.trans (hm.trans hn)
  obtain ⟨hs, hresp⟩ := hst.busy n hn1
  obtain ⟨hphase, hcall⟩ := hst.regs_eq h (hm.trans hn)
  obtain ⟨hheld, -⟩ | hnear :=
    (h.history.transition hmove).held_or_nearer (h.noReset n) (hs n hn1 (Nat.le_refl n)) hresp
  · exact hheld (hport n hn)
  · have hmin := hst.least (n + 1) n.succ_pos
    rw [stepsLeft_congr hphase hcall] at hnear
    omega

/-- The call reaches RESP. -/
theorem exists_resp (h : DutifulCall run move c msg) :
    ∃ n, 1 ≤ n ∧ StillInCall run n ∧ (run n).phase = .resp := by
  by_contra hno
  push Not at hno
  obtain ⟨N, hst⟩ := h.exists_stuck hno
  exact h.not_stuck hst

/-! ### The response -/

/-- From RESP a transition or a move stays in RESP or leads to IDLE. -/
theorem resp_or_idle (h : DutifulCall run move c msg) (hp : (run n).phase = .resp) :
    (run (n + 1)).phase = .resp ∨ (run (n + 1)).phase = .idle := by
  obtain htr | ⟨g, -, hg⟩ := h.history.next n
  · cases hready : (run n).rspReady with
    | true =>
      obtain ⟨-, q, hq⟩ := phaseInv_resp_iff.mp ((h.inv n).regs_of_phase hp)
      rw [htr.unique (.rspack q (h.noReset n) hp hready hq)]
      exact .inr rfl
    | false =>
      rw [htr.unique (.notTaken (h.noReset n) hp hready)]
      exact .inl hp
  · obtain ⟨hphase, -⟩ := g.frame (run n)
    rw [hg, hphase]
    exact .inl hp

/-- A response stands at every later moment, unless it was taken before. -/
theorem resp_until_idle (h : DutifulCall run move c msg) (hp : (run n).phase = .resp) (hm : n ≤ m) :
    (run m).phase = .resp ∨ ∃ k, n < k ∧ (run k).phase = .idle := by
  induction m, hm using Nat.le_induction with
  | base => exact .inl hp
  | succ m hm ih =>
    obtain hresp | htaken := ih
    · obtain hstay | hidle := h.resp_or_idle hresp
      · exact .inl hstay
      · exact .inr ⟨m + 1, Nat.lt_succ_of_le hm, hidle⟩
    · exact .inr htaken

/-- A response is taken (R200). -/
theorem exists_idle (h : DutifulCall run move c msg) (hp : (run n).phase = .resp) :
    ∃ m, n < m ∧ (run m).phase = .idle := by
  obtain ⟨m, hm, hmove, hready⟩ := h.takes n (decide_eq_true hp)
  obtain hresp | htaken := h.resp_until_idle hp hm
  · obtain ⟨-, q, hq⟩ := phaseInv_resp_iff.mp ((h.inv m).regs_of_phase hresp)
    refine ⟨m + 1, Nat.lt_succ_of_le hm, ?_⟩
    rw [(h.history.transition hmove).unique (.rspack q (h.noReset m) hresp hready hq)]
    rfl
  · exact htaken

end DutifulCall

/-- Settles O53: the call reaches RESP with the promised pair, which is then taken. -/
theorem callsUnderTheDutiesAreAnsweredAndTaken : Obligations.CallsUnderTheDutiesAreAnsweredAndTaken := by
  intro run move c msg hhist hruns hrst hi hacc hl htruth hreads htakes
  have h : DutifulCall run move c msg := ⟨hhist, hruns, hrst, hi, hacc, hl, htruth, hreads, htakes⟩
  obtain ⟨n, hn, hs, hp⟩ := h.exists_resp
  obtain ⟨m, hm, hidle⟩ := h.exists_idle hp
  obtain ⟨hpair, -⟩ := h.promises hn hs
  exact ⟨n, m, hs, by rw [rspPort_of_resp hp, ← promised_of_resp hp, hpair], hm, hidle⟩

end Sys2Proof.Machine
end
